-- ==== Sys2Proof/Word.lean ====
section
/-! DEFINITION. The word and byte types of the core (00_scope.md R5, R7, R8). -/

namespace Sys2Proof

/-- A byte: 8 bits (R7). -/
abbrev Byte := BitVec 8

/-- A register value, an address or an assembled immediate: 32 bits, arithmetic modulo `2^32` (R8).
`a + b` on `Word` is the spec's `a +32 b`. -/
abbrev Word := BitVec 32

end Sys2Proof
end

