-- ==== Sys2Proof/Syntax.lean ====
section
/-! DEFINITION. The instructions of the core as syntax: one constructor for each of the 23 rows of
spec/opcode_table.json (30_encoding.md R76, R80, R83). -/

namespace Sys2Proof

/-- The eight general registers, a closed enumeration (10_state.md R21); their numbers are in `Reg.number`. -/
inductive Reg where
  | eax | ecx | edx | ebx | esp | ebp | esi | edi
  deriving DecidableEq, Repr

/-- One constructor per row of spec/opcode_table.json.

In the rows of opcode `0xC7`, `reg` is the ModRM reg field, which selects nothing (R79) and is kept so that no bit of
the encoding is lost; `rm` is the base or destination register, restricted to the row's group by `Instr.wf`;
`d` is the displacement and `imm` the immediate. A row with one base register only (EBP, or an unmodeled group) has
no `rm` field. -/
inductive Instr where
  /-- `MOV EAX, imm32`, opcode `0xB8` (R130). -/
  | movEax (imm : Word)
  /-- `MOV ECX, imm32`, opcode `0xB9` (R131). -/
  | movEcx (imm : Word)
  /-- `MOV EDX, imm32`, opcode `0xBA` (R132). -/
  | movEdx (imm : Word)
  /-- `MOV EBX, imm32`, opcode `0xBB` (R133). -/
  | movEbx (imm : Word)
  /-- `MOV ESP, imm32`, opcode `0xBC` (R134). -/
  | movEsp (imm : Word)
  /-- `MOV EBP, imm32`, opcode `0xBD` (R135). -/
  | movEbp (imm : Word)
  /-- `MOV ESI, imm32`, opcode `0xBE` (R136). -/
  | movEsi (imm : Word)
  /-- `MOV EDI, imm32`, opcode `0xBF` (R137). -/
  | movEdi (imm : Word)
  /-- `JMP rel8`, opcode `0xEB` (R150). -/
  | jmpRel8 (d : Byte)
  /-- `JMP rel32`, opcode `0xE9` (R151). -/
  | jmpRel32 (d : Word)
  /-- `MOV r32, imm32` by way of opcode `0xC7`, mod `11`, any rm (R138). -/
  | movRmReg (reg : BitVec 3) (rm : Reg) (imm : Word)
  /-- `MOV dword [r32], imm32`, mod `00`, rm `000` to `011` (R139). -/
  | movMemLow (reg : BitVec 3) (rm : Reg) (imm : Word)
  /-- `MOV dword [r32], imm32`, mod `00`, rm `110` or `111` (R139). -/
  | movMemHigh (reg : BitVec 3) (rm : Reg) (imm : Word)
  /-- `MOV dword [r32+disp8], imm32`, mod `01`, rm `000` to `011` (R140). -/
  | movMemDisp8Low (reg : BitVec 3) (rm : Reg) (d : Byte) (imm : Word)
  /-- `MOV dword [EBP+disp8], imm32`, mod `01`, rm `101` (R140). -/
  | movMemDisp8Ebp (reg : BitVec 3) (d : Byte) (imm : Word)
  /-- `MOV dword [r32+disp8], imm32`, mod `01`, rm `110` or `111` (R140). -/
  | movMemDisp8High (reg : BitVec 3) (rm : Reg) (d : Byte) (imm : Word)
  /-- `MOV dword [r32+disp32], imm32`, mod `10`, rm `000` to `011` (R141). -/
  | movMemDisp32Low (reg : BitVec 3) (rm : Reg) (d : Word) (imm : Word)
  /-- `MOV dword [EBP+disp32], imm32`, mod `10`, rm `101` (R141). -/
  | movMemDisp32Ebp (reg : BitVec 3) (d : Word) (imm : Word)
  /-- `MOV dword [r32+disp32], imm32`, mod `10`, rm `110` or `111` (R141). -/
  | movMemDisp32High (reg : BitVec 3) (rm : Reg) (d : Word) (imm : Word)
  /-- Opcode `0xC7`, mod `00`, rm `100`: unmodeled (R80, R116, R142). -/
  | movUnmodeledNoDispSib (reg : BitVec 3)
  /-- Opcode `0xC7`, mod `00`, rm `101`: unmodeled (R80, R116, R142). -/
  | movUnmodeledNoBase (reg : BitVec 3)
  /-- Opcode `0xC7`, mod `01`, rm `100`: unmodeled (R80, R116, R142). -/
  | movUnmodeledDisp8Sib (reg : BitVec 3)
  /-- Opcode `0xC7`, mod `10`, rm `100`: unmodeled (R80, R116, R142). -/
  | movUnmodeledDisp32Sib (reg : BitVec 3)
  deriving DecidableEq, Repr

end Sys2Proof
end

