-- ==== Sys2Proof/WellFormed.lean ====
section
/-! DEFINITION. Which terms of `Instr` stand for an encoding: the rm group of each row of opcode `0xC7`
(41_modrm.md R112 to R114, R118; the `rm` entries of spec/opcode_table.json). -/

namespace Sys2Proof

/-- rm `000` to `011`: EAX, ECX, EDX, EBX. -/
def Reg.isLowBase (r : Reg) : Bool :=
  match r with
  | .eax | .ecx | .edx | .ebx => true
  | .esp | .ebp | .esi | .edi => false

/-- rm `110` or `111`: ESI, EDI. -/
def Reg.isHighBase (r : Reg) : Bool :=
  match r with
  | .esi | .edi => true
  | .eax | .ecx | .edx | .ebx | .esp | .ebp => false

/-- The base register of each memory row lies in the row's group; every other field may hold any value. -/
def Instr.wf (i : Instr) : Bool :=
  match i with
  | .movEax _ | .movEcx _ | .movEdx _ | .movEbx _ | .movEsp _ | .movEbp _ | .movEsi _ | .movEdi _ => true
  | .jmpRel8 _ | .jmpRel32 _ => true
  | .movRmReg _ _ _ => true
  | .movMemLow _ rm _ => rm.isLowBase
  | .movMemHigh _ rm _ => rm.isHighBase
  | .movMemDisp8Low _ rm _ _ => rm.isLowBase
  | .movMemDisp8Ebp _ _ _ => true
  | .movMemDisp8High _ rm _ _ => rm.isHighBase
  | .movMemDisp32Low _ rm _ _ => rm.isLowBase
  | .movMemDisp32Ebp _ _ _ => true
  | .movMemDisp32High _ rm _ _ => rm.isHighBase
  | .movUnmodeledNoDispSib _ | .movUnmodeledNoBase _ | .movUnmodeledDisp8Sib _ | .movUnmodeledDisp32Sib _ => true

end Sys2Proof
end

