-- ==== Sys2Proof/Decode.lean ====
section
/-! DEFINITION. From bytes to instructions and back: the byte order of words (20_memory.md R47), register numbers
(10_state.md R22), the ModRM byte (30_encoding.md R74), the dispatch table (R75, R76, 40_fetch_dispatch_engine.md
R95), the decoder, the encoder, the instruction lengths (R71) and the rows of spec/opcode_table.json (R83). -/

namespace Sys2Proof

/-! ## Byte order -/

/-- Four bytes, lowest address first, as a word: `b0 | b1<<8 | b2<<16 | b3<<24` (20_memory.md R44, R47). -/
def wordOfBytes (b0 b1 b2 b3 : Byte) : Word := b3 ++ b2 ++ b1 ++ b0

/-- Byte `k` of a word, `k = 0` the least significant (20_memory.md R45). -/
def byteOfWord (w : Word) (k : Nat) : Byte := w.extractLsb' (8 * k) 8

/-- The four bytes of a word in address order (20_memory.md R45, R47). -/
def bytesOfWord (w : Word) : List Byte :=
  [byteOfWord w 0, byteOfWord w 1, byteOfWord w 2, byteOfWord w 3]

/-! ## Register numbers and the ModRM byte -/

/-- The number of a register is its position in the enumeration (10_state.md R22; decision D15, assumption 9). -/
def Reg.number (r : Reg) : BitVec 3 :=
  match r with
  | .eax => 0b000
  | .ecx => 0b001
  | .edx => 0b010
  | .ebx => 0b011
  | .esp => 0b100
  | .ebp => 0b101
  | .esi => 0b110
  | .edi => 0b111

/-- The register a 3-bit field names (10_state.md R22). -/
def Reg.ofNumber (n : BitVec 3) : Reg :=
  if n = 0b000 then .eax
  else if n = 0b001 then .ecx
  else if n = 0b010 then .edx
  else if n = 0b011 then .ebx
  else if n = 0b100 then .esp
  else if n = 0b101 then .ebp
  else if n = 0b110 then .esi
  else .edi

/-- What the mod field of a ModRM byte says (41_modrm.md R111 to R114). -/
inductive AddrMode where
  /-- mod `00`: the base register alone (R112). -/
  | noDisp
  /-- mod `01`: base plus an 8-bit displacement (R113). -/
  | disp8
  /-- mod `10`: base plus a 32-bit displacement (R114). -/
  | disp32
  /-- mod `11`: the register itself (R111). -/
  | direct
  deriving DecidableEq, Repr

/-- The two bits of a mod field. -/
def AddrMode.bits (m : AddrMode) : BitVec 2 :=
  match m with
  | .noDisp => 0b00
  | .disp8 => 0b01
  | .disp32 => 0b10
  | .direct => 0b11

/-- The addressing mode of a mod field. -/
def AddrMode.ofBits (b : BitVec 2) : AddrMode :=
  if b = 0b00 then .noDisp
  else if b = 0b01 then .disp8
  else if b = 0b10 then .disp32
  else .direct

/-- `mod = m[7:6]` (30_encoding.md R74; decision D3, assumption 8). -/
def modOf (m : Byte) : AddrMode := AddrMode.ofBits (m.extractLsb' 6 2)

/-- `reg = m[5:3]` (30_encoding.md R74; decision D3, assumption 8). -/
def regOf (m : Byte) : BitVec 3 := m.extractLsb' 3 3

/-- `rm = m[2:0]` as a register (30_encoding.md R74; decision D3, assumption 8). -/
def rmOf (m : Byte) : Reg := Reg.ofNumber (m.extractLsb' 0 3)

/-- The ModRM byte with the given fields (30_encoding.md R74). -/
def modrmByte (mode : AddrMode) (reg : BitVec 3) (rm : Reg) : Byte := mode.bits ++ reg ++ rm.number

/-- The group of an rm field in the table of 41_modrm.md R118. -/
inductive RmGroup where
  /-- rm `000` to `011`. -/
  | low
  /-- rm `100`. -/
  | esp
  /-- rm `101`. -/
  | ebp
  /-- rm `110` or `111`. -/
  | high
  deriving DecidableEq, Repr

/-- The group of a register used as an rm field. -/
def Reg.group (r : Reg) : RmGroup :=
  match r with
  | .eax | .ecx | .edx | .ebx => .low
  | .esp => .esp
  | .ebp => .ebp
  | .esi | .edi => .high

/-! ## The dispatch table -/

/-- What a slot of the dispatch table holds (40_fetch_dispatch_engine.md R95). -/
inductive Handler where
  /-- The slot is empty: the opcode is unbound. -/
  | empty
  /-- `mov_r32_imm32`, slots `0xB8` to `0xBF`. -/
  | movR32Imm32
  /-- `mov_rm32_imm32`, slot `0xC7`. -/
  | movRm32Imm32
  /-- `near_jump`, slot `0xE9`. -/
  | nearJump
  /-- `short_jump`, slot `0xEB`. -/
  | shortJump
  deriving DecidableEq, Repr

/-- `TABLE[op]`: 256 constant slots indexed by the opcode byte, 11 of them bound (30_encoding.md R75, R76;
40_fetch_dispatch_engine.md R95 to R97). `0xB8` to `0xBF` are the bytes whose bits 7:3 are `10111` (R72). -/
def dispatchTable (op : Byte) : Handler :=
  if op.extractLsb' 3 5 = 0b10111 then .movR32Imm32
  else if op = 0xC7 then .movRm32Imm32
  else if op = 0xE9 then .nearJump
  else if op = 0xEB then .shortJump
  else .empty

/-- The register of opcodes `0xB8` to `0xBF`: `opcode - 0xB8`, its bits 2:0 (30_encoding.md R72, R76). -/
def opcodeReg (op : Byte) : Reg := Reg.ofNumber (op.extractLsb' 0 3)

/-- The instruction of the eight slots `0xB8` to `0xBF` for each register (42_mov.md R130 to R137). -/
def Instr.movR32 (r : Reg) (imm : Word) : Instr :=
  match r with
  | .eax => .movEax imm
  | .ecx => .movEcx imm
  | .edx => .movEdx imm
  | .ebx => .movEbx imm
  | .esp => .movEsp imm
  | .ebp => .movEbp imm
  | .esi => .movEsi imm
  | .edi => .movEdi imm

/-! ## The decoder -/

/-- What a list of bytes, the first of them the opcode, decodes to. -/
inductive Decoded where
  /-- An instruction, and the bytes after it. -/
  | instr (i : Instr) (rest : List Byte)
  /-- The opcode byte is unbound (30_encoding.md R77); no byte after it was read. -/
  | unboundOpcode (op : Byte)
  /-- The bytes end before the instruction does. -/
  | truncated
  deriving DecidableEq, Repr

/-- The four bytes of an imm32, disp32 or rel32 field (30_encoding.md R73), then what `k` makes of the rest. -/
def takeWord (bs : List Byte) (k : Word → List Byte → Decoded) : Decoded :=
  match bs with
  | b0 :: b1 :: b2 :: b3 :: rest => k (wordOfBytes b0 b1 b2 b3) rest
  | _ => .truncated

/-- The one byte of a rel8, disp8 or ModRM field (30_encoding.md R73), then what `k` makes of the rest. -/
def takeByte (bs : List Byte) (k : Byte → List Byte → Decoded) : Decoded :=
  match bs with
  | b :: rest => k b rest
  | [] => .truncated

/-- Opcode `0xC7` after its ModRM byte, from the byte's fields (41_modrm.md R118): the displacement if the mod field has
one, then the immediate; an unmodeled encoding reads nothing more (R116). -/
def decodeMi (mode : AddrMode) (reg : BitVec 3) (rm : Reg) (bs : List Byte) : Decoded :=
  match mode, rm.group with
  | .direct, _ => takeWord bs fun imm rest => .instr (.movRmReg reg rm imm) rest
  | .noDisp, .low => takeWord bs fun imm rest => .instr (.movMemLow reg rm imm) rest
  | .noDisp, .esp => .instr (.movUnmodeledNoDispSib reg) bs
  | .noDisp, .ebp => .instr (.movUnmodeledNoBase reg) bs
  | .noDisp, .high => takeWord bs fun imm rest => .instr (.movMemHigh reg rm imm) rest
  | .disp8, .low => takeByte bs fun d bs' => takeWord bs' fun imm rest => .instr (.movMemDisp8Low reg rm d imm) rest
  | .disp8, .esp => .instr (.movUnmodeledDisp8Sib reg) bs
  | .disp8, .ebp => takeByte bs fun d bs' => takeWord bs' fun imm rest => .instr (.movMemDisp8Ebp reg d imm) rest
  | .disp8, .high => takeByte bs fun d bs' => takeWord bs' fun imm rest => .instr (.movMemDisp8High reg rm d imm) rest
  | .disp32, .low => takeWord bs fun d bs' => takeWord bs' fun imm rest => .instr (.movMemDisp32Low reg rm d imm) rest
  | .disp32, .esp => .instr (.movUnmodeledDisp32Sib reg) bs
  | .disp32, .ebp => takeWord bs fun d bs' => takeWord bs' fun imm rest => .instr (.movMemDisp32Ebp reg d imm) rest
  | .disp32, .high => takeWord bs fun d bs' => takeWord bs' fun imm rest => .instr (.movMemDisp32High reg rm d imm) rest

/-- Opcode `0xC7` after its opcode byte: the ModRM byte `m` split into its fields (41_modrm.md R110). -/
def decodeMovRm32 (m : Byte) (bs : List Byte) : Decoded := decodeMi (modOf m) (regOf m) (rmOf m) bs

/-- The decoder, total on any bytes: byte 0 is looked up in the dispatch table and nothing else chooses the handler
(40_fetch_dispatch_engine.md R96); the handler's operand bytes follow (30_encoding.md R72, R73). -/
def decode (bs : List Byte) : Decoded :=
  takeByte bs fun op rest =>
    match dispatchTable op with
    | .empty => .unboundOpcode op
    | .movR32Imm32 => takeWord rest fun imm rest' => .instr (Instr.movR32 (opcodeReg op) imm) rest'
    | .movRm32Imm32 => takeByte rest decodeMovRm32
    | .nearJump => takeWord rest fun d rest' => .instr (.jmpRel32 d) rest'
    | .shortJump => takeByte rest fun d rest' => .instr (.jmpRel8 d) rest'

/-! ## The encoder -/

/-- Opcode `0xC7`, the ModRM byte with the given fields, the displacement bytes, the immediate: format MI
(30_encoding.md R72). -/
def encodeMi (mode : AddrMode) (reg : BitVec 3) (rm : Reg) (disp : List Byte) (imm : Word) : List Byte :=
  0xC7 :: modrmByte mode reg rm :: disp ++ bytesOfWord imm

/-- The bytes of an instruction in address order (30_encoding.md R72, R76, R80); an unmodeled encoding is its two
bytes `C7 m` (42_mov.md R142). -/
def encode (i : Instr) : List Byte :=
  match i with
  | .movEax imm => 0xB8 :: bytesOfWord imm
  | .movEcx imm => 0xB9 :: bytesOfWord imm
  | .movEdx imm => 0xBA :: bytesOfWord imm
  | .movEbx imm => 0xBB :: bytesOfWord imm
  | .movEsp imm => 0xBC :: bytesOfWord imm
  | .movEbp imm => 0xBD :: bytesOfWord imm
  | .movEsi imm => 0xBE :: bytesOfWord imm
  | .movEdi imm => 0xBF :: bytesOfWord imm
  | .jmpRel8 d => [0xEB, d]
  | .jmpRel32 d => 0xE9 :: bytesOfWord d
  | .movRmReg reg rm imm => encodeMi .direct reg rm [] imm
  | .movMemLow reg rm imm => encodeMi .noDisp reg rm [] imm
  | .movMemHigh reg rm imm => encodeMi .noDisp reg rm [] imm
  | .movMemDisp8Low reg rm d imm => encodeMi .disp8 reg rm [d] imm
  | .movMemDisp8Ebp reg d imm => encodeMi .disp8 reg .ebp [d] imm
  | .movMemDisp8High reg rm d imm => encodeMi .disp8 reg rm [d] imm
  | .movMemDisp32Low reg rm d imm => encodeMi .disp32 reg rm (bytesOfWord d) imm
  | .movMemDisp32Ebp reg d imm => encodeMi .disp32 reg .ebp (bytesOfWord d) imm
  | .movMemDisp32High reg rm d imm => encodeMi .disp32 reg rm (bytesOfWord d) imm
  | .movUnmodeledNoDispSib reg => [0xC7, modrmByte .noDisp reg .esp]
  | .movUnmodeledNoBase reg => [0xC7, modrmByte .noDisp reg .ebp]
  | .movUnmodeledDisp8Sib reg => [0xC7, modrmByte .disp8 reg .esp]
  | .movUnmodeledDisp32Sib reg => [0xC7, modrmByte .disp32 reg .esp]

/-! ## Lengths and table rows -/

/-- A row of spec/opcode_table.json in the convention of 30_encoding.md R83: `mask` and `pattern` over bytes 0 and 1
read as a little-endian number, and the instruction's length (`none` for an unmodeled row). -/
structure TableRow where
  pattern : BitVec 16
  mask : BitVec 16
  length : Option Nat
  deriving DecidableEq, Repr

/-- The row of an instruction, its numbers copied from spec/opcode_table.json; the lengths are those of
30_encoding.md R71. -/
def Instr.row (i : Instr) : TableRow :=
  match i with
  | .movEax _ => ⟨0x00B8, 0x00FF, some 5⟩
  | .movEcx _ => ⟨0x00B9, 0x00FF, some 5⟩
  | .movEdx _ => ⟨0x00BA, 0x00FF, some 5⟩
  | .movEbx _ => ⟨0x00BB, 0x00FF, some 5⟩
  | .movEsp _ => ⟨0x00BC, 0x00FF, some 5⟩
  | .movEbp _ => ⟨0x00BD, 0x00FF, some 5⟩
  | .movEsi _ => ⟨0x00BE, 0x00FF, some 5⟩
  | .movEdi _ => ⟨0x00BF, 0x00FF, some 5⟩
  | .jmpRel8 _ => ⟨0x00EB, 0x00FF, some 2⟩
  | .jmpRel32 _ => ⟨0x00E9, 0x00FF, some 5⟩
  | .movRmReg _ _ _ => ⟨0xC0C7, 0xC0FF, some 6⟩
  | .movMemLow _ _ _ => ⟨0x00C7, 0xC4FF, some 6⟩
  | .movMemHigh _ _ _ => ⟨0x06C7, 0xC6FF, some 6⟩
  | .movMemDisp8Low _ _ _ _ => ⟨0x40C7, 0xC4FF, some 7⟩
  | .movMemDisp8Ebp _ _ _ => ⟨0x45C7, 0xC7FF, some 7⟩
  | .movMemDisp8High _ _ _ _ => ⟨0x46C7, 0xC6FF, some 7⟩
  | .movMemDisp32Low _ _ _ _ => ⟨0x80C7, 0xC4FF, some 10⟩
  | .movMemDisp32Ebp _ _ _ => ⟨0x85C7, 0xC7FF, some 10⟩
  | .movMemDisp32High _ _ _ _ => ⟨0x86C7, 0xC6FF, some 10⟩
  | .movUnmodeledNoDispSib _ => ⟨0x04C7, 0xC7FF, none⟩
  | .movUnmodeledNoBase _ => ⟨0x05C7, 0xC7FF, none⟩
  | .movUnmodeledDisp8Sib _ => ⟨0x44C7, 0xC7FF, none⟩
  | .movUnmodeledDisp32Sib _ => ⟨0x84C7, 0xC7FF, none⟩

/-- The 23 rows, in the order of spec/opcode_table.json. -/
def opcodeTable : List TableRow :=
  [ Instr.row (.movEax 0), Instr.row (.movEcx 0), Instr.row (.movEdx 0), Instr.row (.movEbx 0),
    Instr.row (.movEsp 0), Instr.row (.movEbp 0), Instr.row (.movEsi 0), Instr.row (.movEdi 0),
    Instr.row (.jmpRel8 0), Instr.row (.jmpRel32 0), Instr.row (.movRmReg 0 .eax 0),
    Instr.row (.movMemLow 0 .eax 0), Instr.row (.movMemHigh 0 .esi 0),
    Instr.row (.movMemDisp8Low 0 .eax 0 0), Instr.row (.movMemDisp8Ebp 0 0 0),
    Instr.row (.movMemDisp8High 0 .esi 0 0), Instr.row (.movMemDisp32Low 0 .eax 0 0),
    Instr.row (.movMemDisp32Ebp 0 0 0), Instr.row (.movMemDisp32High 0 .esi 0 0),
    Instr.row (.movUnmodeledNoDispSib 0), Instr.row (.movUnmodeledNoBase 0),
    Instr.row (.movUnmodeledDisp8Sib 0), Instr.row (.movUnmodeledDisp32Sib 0) ]

/-- Whether the first two bytes of an instruction select a row: `(word & mask) = match` (30_encoding.md R83). -/
def TableRow.selects (row : TableRow) (b0 b1 : Byte) : Bool := ((b1 ++ b0 : BitVec 16) &&& row.mask) == row.pattern

/-! ## The host's numbering -/

/-- The longest instruction (30_encoding.md R70). -/
def maxInstrLength : Nat := 10

/-- `n` bytes of a number, the least significant first. -/
def bytesOfNat (n w : Nat) : List Byte :=
  match n with
  | 0 => []
  | k + 1 => BitVec.ofNat 8 w :: bytesOfNat k (w / 256)

/-- The bytes of a table word, bit 0 the least significant bit of byte 0, every bit from `nbits` on 0, up to the
longest instruction. -/
def tableWordBytes (nbits w : Nat) : List Byte := bytesOfNat maxInstrLength (w % 2 ^ nbits)

/-- The instruction the decoder reads from a table word. -/
def decodeTableWord (nbits w : Nat) : Option Instr :=
  match decode (tableWordBytes nbits w) with
  | .instr i _ => some i
  | .unboundOpcode _ | .truncated => none

end Sys2Proof
end

