-- ==== Sys2Proof/Config.lean ====
section
/-! DEFINITION. The parameters of the core (00_scope.md R5, R6): MEM_CAPACITY, LOAD_OFFSET and TRACE_ENABLE.
They are fixed for a run ("sampled at reset", R13).
Every other parameter of R5 is fixed by the spec and is a type or a constant of the model. -/

namespace Sys2Proof

/-- The three parameters the spec leaves open (R5; decisions D1, D2, D12). -/
structure Config where
  /-- MEM_CAPACITY: the number of bytes of memory (R5, R40). -/
  memCapacity : Nat
  /-- LOAD_OFFSET: where the image is loaded; the reset value of EIP and of ESP (R5, R201). -/
  loadOffset : Word
  /-- TRACE_ENABLE: whether each step emits a trace pair (R5, R102). -/
  traceEnable : Bool
  deriving DecidableEq, Repr

/-- LOAD_OFFSET of the boot-sector convention (R201). -/
def Config.bootSectorOffset : Word := 0x00007C00

/-- LOAD_OFFSET of the flat convention (R201). -/
def Config.flatOffset : Word := 0x00000000

/-- DESIGN CHOICE (assumption 1): the spec's defaults, capacity `0x00100000` (D1), boot-sector convention (D2),
no trace (D12). -/
def Config.default : Config :=
  { memCapacity := 0x00100000, loadOffset := Config.bootSectorOffset, traceEnable := false }

/-- The default capacity and trace setting under the flat convention (R201, Scenario B). -/
def Config.flat : Config := { Config.default with loadOffset := Config.flatOffset }

/-- The constraints of R6, and the two legal values of LOAD_OFFSET (R5). -/
def Config.valid (c : Config) : Bool :=
  decide (16 ≤ c.memCapacity) && decide (c.memCapacity ≤ 0xFFFFFFF0) &&
  decide (c.loadOffset.toNat ≤ c.memCapacity) &&
  (c.loadOffset == Config.bootSectorOffset || c.loadOffset == Config.flatOffset)

end Sys2Proof
end

