-- ==== Sys2Proof/Machine/State.lean ====
section
/-! DEFINITION. The whole state of the core (10_state.md R20), its reset value (R36), and the names of the ways a
step can stop. -/

namespace Sys2Proof.Machine

/-- Memory as the list of its bytes that are not `0x00`, by address, addresses strictly rising; an unlisted address
reads `0x00` (20_memory.md R41). The form is `Memory.wf`. -/
abbrev Memory := List Host.Cell

/-- The eight general registers, 32 bits each (10_state.md R21). -/
structure RegFile where
  eax : Word
  ecx : Word
  edx : Word
  ebx : Word
  esp : Word
  ebp : Word
  esi : Word
  edi : Word
  deriving DecidableEq, Repr

/-- `RUN`, the engine state (10_state.md R30; the third value is the spec's decision D9, assumption 3). -/
inductive RunState where
  | running
  | halted
  | fatal
  deriving DecidableEq, Repr

/-- `HALT_CAUSE` (10_state.md R31, 60_exceptions.md R171). -/
inductive HaltCause where
  | none
  | unimplementedOpcode
  | endOfProgram
  | unimplementedModrm
  deriving DecidableEq, Repr

/-- Why a step, or a load, stops the model. -/
inductive Fault where
  /-- BOUNDS_VIOLATION (60_exceptions.md R174): an opcode fetch, an operand fetch or the store of a memory form met
  the byte address `a`, the lowest of the access that is at or above MEM_CAPACITY. Safe: the spec calls it fatal, ends
  the run, and makes no claim of the state (assumptions 3 and 4). -/
  | boundsViolation (a : Nat)
  /-- A step was asked for in HALTED or FATAL, where none is defined (10_state.md R30). Safe: the run loop never
  asks for one (assumption 5). -/
  | engineStopped
  /-- The loader was given an image that does not fit (20_memory.md R46, 70_reset_and_hazards.md R203). Raised by
  the loader only, never by a step. Safe: no step executes after it (assumption 19). -/
  | imageTooLarge
  deriving DecidableEq, Repr

/-- Why the model gives an instruction no meaning. -/
inductive Refusal where
  /-- An arm of `exec` without a meaning yet. No arm of this model raises it. Safe: it claims nothing. -/
  | notModelled (mnemonic : String)
  deriving DecidableEq, Repr

/-- The state of 10_state.md R20, and the run's parameters beside it (assumption 1). -/
structure State where
  /-- MEM_CAPACITY, LOAD_OFFSET, TRACE_ENABLE, sampled at reset (00_scope.md R13): the model's own field, read by the
  bounds rule, the loader and the trace, and written by no step. -/
  config : Config
  /-- `x[0]` to `x[7]` (R21). -/
  regs : RegFile
  /-- EIP (R26). -/
  eip : Word
  /-- EFLAGS, no bit of it named (R28; assumption 16). -/
  eflags : Word
  /-- MEM (R33, 20_memory.md R40). -/
  mem : Memory
  /-- RUN (R30). -/
  run : RunState
  /-- HALT_CAUSE (R31). -/
  haltCause : HaltCause
  /-- HALT_OPCODE (R31). -/
  haltOpcode : Byte
  /-- HALT_MODRM (R31). -/
  haltModrm : Byte
  deriving DecidableEq, Repr

/-- The state after reset and before the load, for given parameters (10_state.md R36): every register 0 but ESP and
EIP, which are LOAD_OFFSET; flags 0; memory zero; RUNNING, no halt cause. -/
def State.resetWith (c : Config) : State :=
  { config := c,
    regs := { eax := 0, ecx := 0, edx := 0, ebx := 0, esp := c.loadOffset, ebp := 0, esi := 0, edi := 0 },
    eip := c.loadOffset,
    eflags := 0,
    mem := [],
    run := .running,
    haltCause := .none,
    haltOpcode := 0,
    haltModrm := 0 }

/-- Reset under the default parameters (assumption 1). -/
def State.reset : State := State.resetWith Config.default

end Sys2Proof.Machine
end

