-- ==== Sys2Proof/Machine/Ops.lean ====
section
/-! DEFINITION. The named operations over registers and memory (10_state.md R23, 20_memory.md R42 to R46) and the stop
events (60_exceptions.md R171 to R178). The core takes no exception in the sense of a transfer of control and has no
return from one (R170, R178, R179): a stop event is the whole of what the spec gives in their place, and `halt` is
its one shared operation. -/

namespace Sys2Proof.Machine

/-! ## Registers -/

/-- Slot `r` of the register file. -/
def RegFile.get (f : RegFile) (r : Reg) : Word :=
  match r with
  | .eax => f.eax
  | .ecx => f.ecx
  | .edx => f.edx
  | .ebx => f.ebx
  | .esp => f.esp
  | .ebp => f.ebp
  | .esi => f.esi
  | .edi => f.edi

/-- The register file with all 32 bits of slot `r` replaced. -/
def RegFile.set (f : RegFile) (r : Reg) (v : Word) : RegFile :=
  match r with
  | .eax => { f with eax := v }
  | .ecx => { f with ecx := v }
  | .edx => { f with edx := v }
  | .ebx => { f with ebx := v }
  | .esp => { f with esp := v }
  | .ebp => { f with ebp := v }
  | .esi => { f with esi := v }
  | .edi => { f with edi := v }

/-- `x[r]` (10_state.md R23). -/
def readReg (s : State) (r : Reg) : Word := s.regs.get r

/-- `x[r] <- v` (10_state.md R23). -/
def writeReg (s : State) (r : Reg) (v : Word) : State := { s with regs := s.regs.set r v }

/-- `EIP <- v` (10_state.md R27). -/
def setEip (s : State) (v : Word) : State := { s with eip := v }

/-! ## Memory as a list of cells -/

/-- What an unlisted address reads as (20_memory.md R41). -/
def Memory.unlisted : Byte := 0x00

/-- The byte at address `a`. -/
def Memory.read (m : Memory) (a : Nat) : Byte :=
  match m with
  | [] => Memory.unlisted
  | (k, b) :: rest => if k = a then b else Memory.read rest a

/-- The memory with no entry for address `a`. -/
def Memory.erase (m : Memory) (a : Nat) : Memory :=
  match m with
  | [] => []
  | (k, b) :: rest => if k = a then Memory.erase rest a else (k, b) :: Memory.erase rest a

/-- An entry put before the first one with a higher address. -/
def Memory.insert (m : Memory) (a : Nat) (v : Byte) : Memory :=
  match m with
  | [] => [(a, v)]
  | (k, b) :: rest => if a < k then (a, v) :: (k, b) :: rest else (k, b) :: Memory.insert rest a v

/-- `MEM[a] <- v`, in canonical form: a byte equal to what an unlisted address reads as is not listed. -/
def Memory.write (m : Memory) (a : Nat) (v : Byte) : Memory :=
  if v = Memory.unlisted then Memory.erase m a else Memory.insert (Memory.erase m a) a v

/-- Consecutive bytes written from address `a` on, in address order. -/
def Memory.writeBytes (m : Memory) (a : Nat) (bs : List Byte) : Memory :=
  match bs with
  | [] => m
  | b :: rest => Memory.writeBytes (Memory.write m a b) (a + 1) rest

/-- The canonical form: addresses strictly rising, no listed byte equal to what an unlisted address reads as. -/
def Memory.wf (m : Memory) : Bool :=
  match m with
  | [] => true
  | (k, b) :: rest => (b != Memory.unlisted) && rest.all (fun c => decide (k < c.1)) && Memory.wf rest

/-- Every listed address is below `capacity`. -/
def Memory.below (m : Memory) (capacity : Nat) : Bool := m.all (fun c => decide (c.1 < capacity))

/-! ## The access primitives -/

/-- `MEM[a]`, the content of one byte, whatever the bounds; no instruction uses it. -/
def readByte (s : State) (a : Nat) : Byte := Memory.read s.mem a

/-- `a < MEM_CAPACITY` for the `n` bytes from `addr` on, `n` at least 1, as natural numbers (20_memory.md R42 to
R45). -/
def inBounds (s : State) (addr : Word) (n : Nat) : Bool := decide (addr.toNat + n ≤ s.config.memCapacity)

/-- The fault of an access from `addr` on that is not in bounds: the lowest of its byte addresses that is at or above
MEM_CAPACITY (20_memory.md R44, R45; decision D9, assumption 4). -/
def boundsFault (s : State) (addr : Word) : Fault := .boundsViolation (max addr.toNat s.config.memCapacity)

/-- `MemRead(addr, 1)` (20_memory.md R43). -/
def memRead8 (s : State) (addr : Word) : Except Fault Byte :=
  if inBounds s addr 1 then .ok (readByte s addr.toNat) else .error (boundsFault s addr)

/-- `MemRead(addr, 4)`, little-endian (20_memory.md R44). -/
def memRead32 (s : State) (addr : Word) : Except Fault Word :=
  if inBounds s addr 4 then
    .ok (wordOfBytes (readByte s addr.toNat) (readByte s (addr.toNat + 1)) (readByte s (addr.toNat + 2))
      (readByte s (addr.toNat + 3)))
  else .error (boundsFault s addr)

/-- `MemWrite(addr, 4, v)`, little-endian, no byte written when any is out of bounds (20_memory.md R45; decision D8,
assumption 12). -/
def memWrite32 (s : State) (addr : Word) (v : Word) : Except Fault State :=
  if inBounds s addr 4 then .ok { s with mem := Memory.writeBytes s.mem addr.toNat (bytesOfWord v) }
  else .error (boundsFault s addr)

/-! ## Stop events -/

/-- What a halt records beside its cause (00_scope.md R10, 60_exceptions.md R171). -/
inductive HaltInfo where
  /-- Nothing. -/
  | none
  /-- The offending opcode byte. -/
  | opcode (op : Byte)
  /-- The opcode byte and the ModRM byte. -/
  | modrm (op m : Byte)
  deriving DecidableEq, Repr

/-- `halt(cause, info)` (00_scope.md R10, 60_exceptions.md R172, R173, R175): `RUN <- HALTED`, the cause and the bytes
recorded, nothing else changed (R177, R178). -/
def halt (cause : HaltCause) (info : HaltInfo) (s : State) : State :=
  match info with
  | .none => { s with run := .halted, haltCause := cause }
  | .opcode op => { s with run := .halted, haltCause := cause, haltOpcode := op }
  | .modrm op m => { s with run := .halted, haltCause := cause, haltOpcode := op, haltModrm := m }

/-- UNIMPLEMENTED_OPCODE (60_exceptions.md R172). -/
def haltUnimplementedOpcode (op : Byte) (s : State) : State := halt .unimplementedOpcode (.opcode op) s

/-- UNIMPLEMENTED_MODRM (41_modrm.md R116, 60_exceptions.md R175; decision D4, assumption 6). -/
def haltUnimplementedModrm (m : Byte) (s : State) : State := halt .unimplementedModrm (.modrm 0xC7 m) s

/-- The sentinel test (40_fetch_dispatch_engine.md R100, 60_exceptions.md R173), made on the state a bound handler
left; a handler that halted the engine is not tested (decision D10, assumption 14). -/
def checkSentinel (s : State) : State :=
  if s.run = .running ∧ s.eip = 0 then halt .endOfProgram .none s else s

/-- `raise Fatal(BoundsViolation, a)` as the engine's transition: `RUN <- FATAL`, nothing else of the step committed
(60_exceptions.md R174, R177; decision D9, assumption 3). -/
def fatalStop (s : State) : State := { s with run := .fatal }

/-! ## Outcomes -/

/-- A completed or faulted handler as the outcome of a step. -/
def toOutcome (r : Except Fault State) : Host.Outcome State Fault Refusal :=
  match r with
  | .ok t => .next t
  | .error f => .fault f

/-- The engine's CHECK phase after a handler (40_fetch_dispatch_engine.md R99, R100, R105). -/
def afterHandler (o : Host.Outcome State Fault Refusal) : Host.Outcome State Fault Refusal :=
  match o with
  | .next t => .next (checkSentinel t)
  | .fault f => .fault f
  | .refused r => .refused r

/-! ## The loader -/

/-- `load(offset, bytes)` (20_memory.md R46): all of the image or none of it. -/
def load (offset : Nat) (bytes : List Byte) (s : State) : Host.Outcome State Fault Refusal :=
  if offset + bytes.length ≤ s.config.memCapacity then
    .next { s with mem := Memory.writeBytes s.mem offset bytes }
  else .fault .imageTooLarge

/-- The one load of a run, at LOAD_OFFSET (20_memory.md R46). -/
def loadImage (image : List Byte) (s : State) : Host.Outcome State Fault Refusal :=
  load s.config.loadOffset.toNat image s

/-- `reset(MEM_CAPACITY, LOAD_OFFSET, TRACE_ENABLE, image)` up to the run loop (70_reset_and_hazards.md R200): reset,
then load; on failure the core never runs (R203). -/
def boot (c : Config) (image : List Byte) : Host.Outcome State Fault Refusal := loadImage image (State.resetWith c)

end Sys2Proof.Machine
end

