-- ==== Sys2Proof/Machine/Flags.lean ====
section
/-! DEFINITION. The flags word (10_state.md R28). The spec gives no flag computation at all: no bit of EFLAGS is named,
no instruction writes the word and none reads it, so no meaning of this model calls anything here. -/

namespace Sys2Proof.Machine

/-- EFLAGS, all 32 bits (10_state.md R28; decision D14, assumption 16). -/
def flagsWord (s : State) : Word := s.eflags

end Sys2Proof.Machine
end

