-- ==== Sys2Proof/Machine/Operands.lean ====
section
/-! DEFINITION. The operand forms of the core: sign extension (00_scope.md R9), the fetch primitives
(40_fetch_dispatch_engine.md R90 to R93) and the register-or-memory operand of opcode `0xC7` (41_modrm.md). -/

namespace Sys2Proof.Machine

/-- `sext_32(b)` of a byte (00_scope.md R9). -/
def sext8 (b : Byte) : Word := b.signExtend 32

/-- `zext_32(b)` of a byte (00_scope.md R9); no instruction uses it on program data. -/
def zext8 (b : Byte) : Word := b.zeroExtend 32

/-! ## Instruction fetcher -/

/-- `code8(k)` (R90): the byte at `EIP + k`, the sum modulo `2^32` (decision D7, assumption 11). -/
def code8 (s : State) (k : Nat) : Except Fault Byte := memRead8 s (s.eip + BitVec.ofNat 32 k)

/-- `code32(k)` (R92): four bytes, little-endian, from `EIP + k` on. -/
def code32 (s : State) (k : Nat) : Except Fault Word := memRead32 s (s.eip + BitVec.ofNat 32 k)

/-- `sext_32(sign_code8(k))` (R91): the byte of `code8(k)` read as two's complement and widened. -/
def signCode8 (s : State) (k : Nat) : Except Fault Word := (code8 s k).map sext8

/-- `sign_code32(k)` (R93): the bit pattern of `code32(k)`; read as two's complement it adds alike modulo `2^32`. -/
def signCode32 (s : State) (k : Nat) : Except Fault Word := code32 s k

/-! ## The r/m32 operand -/

/-- A modeled descriptor: where an r/m32 operand lies (41_modrm.md R110). -/
inductive Descriptor where
  /-- `Reg(n)` (R111). -/
  | reg (r : Reg)
  /-- `Mem(ea)` (R112 to R114). -/
  | mem (ea : Word)
  deriving DecidableEq, Repr

/-- The effective address of mod `00`: the base register (41_modrm.md R112). -/
def eaBase (s : State) (base : Reg) : Word := readReg s base

/-- The effective address of mod `01`: base plus the sign-extended displacement modulo `2^32` (41_modrm.md R113, R115;
decision D6, assumption 10). -/
def eaDisp8 (s : State) (base : Reg) (d : Byte) : Word := readReg s base + sext8 d

/-- The effective address of mod `10`: base plus displacement modulo `2^32` (41_modrm.md R114, R115; decision D6,
assumption 10). -/
def eaDisp32 (s : State) (base : Reg) (d : Word) : Word := readReg s base + d

/-- `write_rm32(descriptor, value)` (41_modrm.md R119). -/
def writeRm32 (desc : Descriptor) (v : Word) (s : State) : Except Fault State :=
  match desc with
  | .reg r => .ok (writeReg s r v)
  | .mem ea => memWrite32 s ea v

/-- `read_rm32(descriptor)` (41_modrm.md R120); no instruction uses it (44_unbound_and_absent.md R163). -/
def readRm32 (desc : Descriptor) (s : State) : Except Fault Word :=
  match desc with
  | .reg r => .ok (readReg s r)
  | .mem ea => memRead32 s ea

end Sys2Proof.Machine
end

