-- ==== Sys2Proof/Machine/Jmp.lean ====
section
/-! DEFINITION. The two jumps (43_jmp.md R150, R151). -/

namespace Sys2Proof.Machine

/-- `JMP rel8`: `EIP <- old + sext_32(d) + 2`, modulo `2^32` (R150). -/
def execJmpRel8 (d : Byte) (s : State) : Host.Outcome State Fault Refusal := .next (setEip s (s.eip + sext8 d + 2))

/-- `JMP rel32`: `EIP <- old + d + 5`, modulo `2^32` (R151). -/
def execJmpRel32 (d : Word) (s : State) : Host.Outcome State Fault Refusal := .next (setEip s (s.eip + d + 5))

end Sys2Proof.Machine
end

