-- ==== Sys2Proof/Machine/Mov.lean ====
section
/-! DEFINITION. `MOV r32, imm32`, opcodes `0xB8` to `0xBF` (42_mov.md R130 to R137). -/

namespace Sys2Proof.Machine

/-- The handler `mov_r32_imm32` after its fetch: `x[r] <- imm`, then `EIP <- old + 5` (R130 to R137). -/
def movR32 (r : Reg) (imm : Word) (s : State) : Host.Outcome State Fault Refusal :=
  .next (setEip (writeReg s r imm) (s.eip + 5))

/-- `MOV EAX, imm32` (R130). -/
def execMovEax (imm : Word) (s : State) : Host.Outcome State Fault Refusal := movR32 .eax imm s

/-- `MOV ECX, imm32` (R131). -/
def execMovEcx (imm : Word) (s : State) : Host.Outcome State Fault Refusal := movR32 .ecx imm s

/-- `MOV EDX, imm32` (R132). -/
def execMovEdx (imm : Word) (s : State) : Host.Outcome State Fault Refusal := movR32 .edx imm s

/-- `MOV EBX, imm32` (R133). -/
def execMovEbx (imm : Word) (s : State) : Host.Outcome State Fault Refusal := movR32 .ebx imm s

/-- `MOV ESP, imm32` (R134): ESP is an ordinary register (10_state.md R25). -/
def execMovEsp (imm : Word) (s : State) : Host.Outcome State Fault Refusal := movR32 .esp imm s

/-- `MOV EBP, imm32` (R135). -/
def execMovEbp (imm : Word) (s : State) : Host.Outcome State Fault Refusal := movR32 .ebp imm s

/-- `MOV ESI, imm32` (R136). -/
def execMovEsi (imm : Word) (s : State) : Host.Outcome State Fault Refusal := movR32 .esi imm s

/-- `MOV EDI, imm32` (R137). -/
def execMovEdi (imm : Word) (s : State) : Host.Outcome State Fault Refusal := movR32 .edi imm s

end Sys2Proof.Machine
end

