-- ==== Sys2Proof/Machine/MovRm.lean ====
section
/-! DEFINITION. `MOV r/m32, imm32`, opcode `0xC7` (42_mov.md R138 to R142). The reg field of the ModRM byte takes no part
in a modeled form (30_encoding.md R79; decision D5, assumption 7). -/

namespace Sys2Proof.Machine

/-- The handler `mov_rm32_imm32` after its fetch and decode: `write_rm32(desc, imm)`, then
`EIP <- old + (1 + M + 4)` (42_mov.md section 2, 41_modrm.md R117); nothing is committed when the store is out of
bounds (60_exceptions.md R177). -/
def movRm32 (desc : Descriptor) (modrmBytes : Nat) (imm : Word) (s : State) : Host.Outcome State Fault Refusal :=
  toOutcome ((writeRm32 desc imm s).map fun t => setEip t (s.eip + BitVec.ofNat 32 (1 + modrmBytes + 4)))

/-- `MOV r32, imm32` by way of `0xC7`, mod `11` (R138). -/
def execMovRmReg (rm : Reg) (imm : Word) (s : State) : Host.Outcome State Fault Refusal := movRm32 (.reg rm) 1 imm s

/-- `MOV dword [r32], imm32`, rm `000` to `011` (R139). -/
def execMovMemLow (rm : Reg) (imm : Word) (s : State) : Host.Outcome State Fault Refusal :=
  movRm32 (.mem (eaBase s rm)) 1 imm s

/-- `MOV dword [r32], imm32`, rm `110`, `111` (R139). -/
def execMovMemHigh (rm : Reg) (imm : Word) (s : State) : Host.Outcome State Fault Refusal :=
  movRm32 (.mem (eaBase s rm)) 1 imm s

/-- `MOV dword [r32+disp8], imm32`, rm `000` to `011` (R140). -/
def execMovMemDisp8Low (rm : Reg) (d : Byte) (imm : Word) (s : State) : Host.Outcome State Fault Refusal :=
  movRm32 (.mem (eaDisp8 s rm d)) 2 imm s

/-- `MOV dword [EBP+disp8], imm32` (R140). -/
def execMovMemDisp8Ebp (d : Byte) (imm : Word) (s : State) : Host.Outcome State Fault Refusal :=
  movRm32 (.mem (eaDisp8 s .ebp d)) 2 imm s

/-- `MOV dword [r32+disp8], imm32`, rm `110`, `111` (R140). -/
def execMovMemDisp8High (rm : Reg) (d : Byte) (imm : Word) (s : State) : Host.Outcome State Fault Refusal :=
  movRm32 (.mem (eaDisp8 s rm d)) 2 imm s

/-- `MOV dword [r32+disp32], imm32`, rm `000` to `011` (R141). -/
def execMovMemDisp32Low (rm : Reg) (d : Word) (imm : Word) (s : State) : Host.Outcome State Fault Refusal :=
  movRm32 (.mem (eaDisp32 s rm d)) 5 imm s

/-- `MOV dword [EBP+disp32], imm32` (R141). -/
def execMovMemDisp32Ebp (d : Word) (imm : Word) (s : State) : Host.Outcome State Fault Refusal :=
  movRm32 (.mem (eaDisp32 s .ebp d)) 5 imm s

/-- `MOV dword [r32+disp32], imm32`, rm `110`, `111` (R141). -/
def execMovMemDisp32High (rm : Reg) (d : Word) (imm : Word) (s : State) : Host.Outcome State Fault Refusal :=
  movRm32 (.mem (eaDisp32 s rm d)) 5 imm s

/-- The handler of an unmodeled ModRM encoding: the UNIMPLEMENTED_MODRM halt, with the ModRM byte recorded
(41_modrm.md R116, 42_mov.md R142; decision D4, assumption 6). -/
def movUnmodeled (m : Byte) (s : State) : Host.Outcome State Fault Refusal := .next (haltUnimplementedModrm m s)

/-- mod `00`, rm `100` (R116, R142). -/
def execMovUnmodeledNoDispSib (reg : BitVec 3) (s : State) : Host.Outcome State Fault Refusal :=
  movUnmodeled (modrmByte .noDisp reg .esp) s

/-- mod `00`, rm `101` (R116, R142). -/
def execMovUnmodeledNoBase (reg : BitVec 3) (s : State) : Host.Outcome State Fault Refusal :=
  movUnmodeled (modrmByte .noDisp reg .ebp) s

/-- mod `01`, rm `100` (R116, R142). -/
def execMovUnmodeledDisp8Sib (reg : BitVec 3) (s : State) : Host.Outcome State Fault Refusal :=
  movUnmodeled (modrmByte .disp8 reg .esp) s

/-- mod `10`, rm `100` (R116, R142). -/
def execMovUnmodeledDisp32Sib (reg : BitVec 3) (s : State) : Host.Outcome State Fault Refusal :=
  movUnmodeled (modrmByte .disp32 reg .esp) s

end Sys2Proof.Machine
end

