-- ==== Sys2Proof/Machine/Dispatch.lean ====
section
/-! DEFINITION. The meaning of each instruction (42_mov.md, 43_jmp.md): one arm per constructor of `Instr`. -/

namespace Sys2Proof.Machine

-- The state is the one at the start of the step: its EIP is the spec's `old`.
def exec (i : Instr) (s : State) : Host.Outcome State Fault Refusal :=
  match i with
  -- MOV r32, imm32 (R130 to R137)
  | .movEax imm => Sys2Proof.Machine.execMovEax imm s
  | .movEcx imm => Sys2Proof.Machine.execMovEcx imm s
  | .movEdx imm => Sys2Proof.Machine.execMovEdx imm s
  | .movEbx imm => Sys2Proof.Machine.execMovEbx imm s
  | .movEsp imm => Sys2Proof.Machine.execMovEsp imm s
  | .movEbp imm => Sys2Proof.Machine.execMovEbp imm s
  | .movEsi imm => Sys2Proof.Machine.execMovEsi imm s
  | .movEdi imm => Sys2Proof.Machine.execMovEdi imm s
  -- JMP (R150, R151)
  | .jmpRel8 d => Sys2Proof.Machine.execJmpRel8 d s
  | .jmpRel32 d => Sys2Proof.Machine.execJmpRel32 d s
  -- MOV r/m32, imm32 (R138 to R141); the reg field is ignored (R79)
  | .movRmReg _ rm imm => Sys2Proof.Machine.execMovRmReg rm imm s
  | .movMemLow _ rm imm => Sys2Proof.Machine.execMovMemLow rm imm s
  | .movMemHigh _ rm imm => Sys2Proof.Machine.execMovMemHigh rm imm s
  | .movMemDisp8Low _ rm d imm => Sys2Proof.Machine.execMovMemDisp8Low rm d imm s
  | .movMemDisp8Ebp _ d imm => Sys2Proof.Machine.execMovMemDisp8Ebp d imm s
  | .movMemDisp8High _ rm d imm => Sys2Proof.Machine.execMovMemDisp8High rm d imm s
  | .movMemDisp32Low _ rm d imm => Sys2Proof.Machine.execMovMemDisp32Low rm d imm s
  | .movMemDisp32Ebp _ d imm => Sys2Proof.Machine.execMovMemDisp32Ebp d imm s
  | .movMemDisp32High _ rm d imm => Sys2Proof.Machine.execMovMemDisp32High rm d imm s
  -- Unmodeled ModRM encodings (R116, R142)
  | .movUnmodeledNoDispSib reg => Sys2Proof.Machine.execMovUnmodeledNoDispSib reg s
  | .movUnmodeledNoBase reg => Sys2Proof.Machine.execMovUnmodeledNoBase reg s
  | .movUnmodeledDisp8Sib reg => Sys2Proof.Machine.execMovUnmodeledDisp8Sib reg s
  | .movUnmodeledDisp32Sib reg => Sys2Proof.Machine.execMovUnmodeledDisp32Sib reg s

end Sys2Proof.Machine
end

