-- ==== Sys2Proof/Machine/Engine.lean ====
section
/-! DEFINITION. One step of the engine (40_fetch_dispatch_engine.md R99, R105): fetch, dispatch, execute, check. -/

namespace Sys2Proof.Machine

/-- The bytes that can be fetched from `a` on, at most `n` of them, up to the first that is out of bounds. -/
def fetchBytes (s : State) (n : Nat) (a : Word) : List Byte :=
  match n with
  | 0 => []
  | k + 1 =>
    match memRead8 s a with
    | .ok b => b :: fetchBytes s k (a + 1)
    | .error _ => []

/-- The bytes a step may read as its instruction: at most the longest instruction, from EIP on (30_encoding.md R70,
40_fetch_dispatch_engine.md R90). Reading bytes the instruction does not use changes nothing (20_memory.md R50;
assumption 15). -/
def fetchWindow (s : State) : List Byte := fetchBytes s maxInstrLength s.eip

/-- The fault of an instruction whose bytes end at the bound: the first byte that could not be fetched
(60_exceptions.md R176, orders 1, 3 and 5; assumption 4). -/
def fetchFault (s : State) : Fault := boundsFault s (s.eip + BitVec.ofNat 32 (fetchWindow s).length)

/-- What the engine does with the decoded bytes (R99): an unbound opcode halts it with nothing else changed (R172), a
fetch out of bounds is fatal (R174), an instruction runs and the sentinel is tested after it (R100). -/
def runDecoded (d : Decoded) (s : State) : Host.Outcome State Fault Refusal :=
  match d with
  | .unboundOpcode op => .next (haltUnimplementedOpcode op s)
  | .truncated => .fault (fetchFault s)
  | .instr i _ => afterHandler (exec i s)

/-- One step (R99), defined only in RUNNING (10_state.md R30). -/
def engineStep (s : State) : Host.Outcome State Fault Refusal :=
  match s.run with
  | .running => runDecoded (decode (fetchWindow s)) s
  | .halted | .fatal => .fault .engineStopped

/-- The bytes of `bs` stored from `a` on, each only where it is in bounds. -/
def placeBytes (s : State) (a : Nat) (bs : List Byte) : State :=
  match bs with
  | [] => s
  | b :: rest =>
    if a < s.config.memCapacity then placeBytes { s with mem := Memory.write s.mem a b } (a + 1) rest else s

end Sys2Proof.Machine
end

