-- ==== Sys2Proof/Machine/Step.lean ====
section
/-! DEFINITION. The step of the machine, and the placing of one instruction where it fetches. -/

namespace Sys2Proof.Machine

/-- One step of the core (40_fetch_dispatch_engine.md R99). -/
def step (s : State) : Host.Outcome State Fault Refusal := engineStep s

/-- `s` with a table word's bytes stored from EIP on and the engine running, so that `step` fetches and runs exactly
that instruction. It stands for the host's load (20_memory.md R46, 70_reset_and_hazards.md R200; assumption 2). -/
def State.withFetchWord (s : State) (nbits w : Nat) : State :=
  { placeBytes s s.eip.toNat (tableWordBytes nbits w) with run := .running }

end Sys2Proof.Machine
end

