-- ==== Sys2Proof/Machine/Pseudocode.lean ====
section
/-! DEFINITION. The step as the spec's pseudocode writes it (40_fetch_dispatch_engine.md R99, 41_modrm.md R118, 42_mov.md,
43_jmp.md): each handler fetches its own operand bytes with `code8` and `code32` and raises the fault of the access
that failed. Nothing of the model calls it; it is the other side of the statement that `step`, which decodes a window
of bytes, is this step. -/

namespace Sys2Proof.Machine

/-- The result of `decode()` (41_modrm.md R110): a modeled descriptor with `M`, or an unmodeled encoding, which has
no `M` (R117). -/
inductive ModrmResult where
  | modeled (desc : Descriptor) (modrmBytes : Nat)
  | unmodeled (m : Byte)
  deriving DecidableEq, Repr

/-- `decode()` (41_modrm.md R118), line by line. -/
def pseudoModrm (s : State) : Except Fault ModrmResult := do
  let m ← code8 s 1
  let rm := rmOf m
  if modOf m = .direct then return .modeled (.reg rm) 1
  if rm = .esp then return .unmodeled m
  if modOf m = .noDisp ∧ rm = .ebp then return .unmodeled m
  match modOf m with
  | .disp8 =>
    let d ← code8 s 2
    return .modeled (.mem (readReg s rm + sext8 d)) 2
  | .disp32 =>
    let d ← code32 s 2
    return .modeled (.mem (readReg s rm + d)) 5
  | .noDisp | .direct => return .modeled (.mem (readReg s rm)) 1

/-- The handlers of the dispatch table (40_fetch_dispatch_engine.md R95, R98; 42_mov.md R130 to R142; 43_jmp.md R150,
R151), each from the opcode byte `op`; `s.eip` is `old` throughout. -/
def pseudoHandler (h : Handler) (op : Byte) (s : State) : Except Fault State := do
  match h with
  | .empty => return haltUnimplementedOpcode op s
  | .movR32Imm32 =>
    let imm ← code32 s 1
    return { writeReg s (opcodeReg op) imm with eip := s.eip + 5 }
  | .movRm32Imm32 =>
    match ← pseudoModrm s with
    | .unmodeled m => return haltUnimplementedModrm m s
    | .modeled desc modrmBytes =>
      let imm ← code32 s (1 + modrmBytes)
      let t ← writeRm32 desc imm s
      return { t with eip := s.eip + BitVec.ofNat 32 (1 + modrmBytes + 4) }
  | .nearJump =>
    let d ← code32 s 1
    return { s with eip := s.eip + d + 5 }
  | .shortJump =>
    let d ← code8 s 1
    return { s with eip := s.eip + sext8 d + 2 }

/-- `step()` (40_fetch_dispatch_engine.md R99). The sentinel test does nothing to a state that a halt has already
taken out of RUNNING (R100). -/
def pseudoStep (s : State) : Host.Outcome State Fault Refusal :=
  match s.run with
  | .running =>
    toOutcome (do
      let op ← memRead8 s s.eip
      let t ← pseudoHandler (dispatchTable op) op s
      return checkSentinel t)
  | .halted | .fatal => .fault .engineStopped

end Sys2Proof.Machine
end

