-- ==== Sys2Proof/Machine/RunLoop.lean ====
section
/-! DEFINITION. The run loop (40_fetch_dispatch_engine.md R101, R104) and what the core shows the host: the trace (R102)
and the termination report (R103). -/

namespace Sys2Proof.Machine

/-- One turn of the run loop: a step while RUN = RUNNING; a fatal stop takes the engine to FATAL with nothing else
changed (60_exceptions.md R174, R177); HALTED and FATAL are terminal (R179). -/
def turn (s : State) : State :=
  match s.run with
  | .running =>
    match step s with
    | .next t => t
    | .fault _ => fatalStop s
    | .refused _ => s
  | .halted | .fatal => s

/-- `n` turns of the run loop. A run that never stops is legal (R104), so the loop takes fuel. -/
def runLoop (n : Nat) (s : State) : State :=
  match n with
  | 0 => s
  | k + 1 => runLoop k (turn s)

/-- The trace pair a step from `s` emits: EIP and the opcode byte, when TRACE_ENABLE is set and the opcode fetch
succeeds (R102; decision D12, assumption 17). -/
def traceOut (s : State) : Option (Word × Byte) :=
  if s.config.traceEnable ∧ s.run = .running then
    match code8 s 0 with
    | .ok op => some (s.eip, op)
    | .error _ => none
  else none

/-- The trace of `n` turns of the run loop, in order (R102). -/
def traceRun (n : Nat) (s : State) : List (Word × Byte) :=
  match n with
  | 0 => []
  | k + 1 => (traceOut s).toList ++ traceRun k (turn s)

/-- The numeric code of a halt cause (60_exceptions.md R171; decision D11, assumption 13). -/
def HaltCause.code (c : HaltCause) : Nat :=
  match c with
  | .none => 0
  | .unimplementedOpcode => 1
  | .endOfProgram => 2
  | .unimplementedModrm => 3

/-- The eight registers in the order of the report (40_fetch_dispatch_engine.md R103; assumption 18). -/
def reportOrder : List Reg := [.eax, .ecx, .edx, .ebx, .esp, .ebp, .esi, .edi]

/-- The termination report (40_fetch_dispatch_engine.md R103): the halt cause with the bytes its notice carries, the
registers in order, EIP. EFLAGS and memory are not in it. -/
structure Report where
  cause : HaltCause
  notice : HaltInfo
  registers : List (Reg × Word)
  eip : Word
  deriving DecidableEq, Repr

/-- The bytes a notice carries (10_state.md R31). -/
def noticeOf (s : State) : HaltInfo :=
  match s.haltCause with
  | .none | .endOfProgram => .none
  | .unimplementedOpcode => .opcode s.haltOpcode
  | .unimplementedModrm => .modrm s.haltOpcode s.haltModrm

/-- The report of a halted core; there is none while it runs and none after a fatal stop (R103, 60_exceptions.md
R174). -/
def report (s : State) : Option Report :=
  match s.run with
  | .halted =>
    some { cause := s.haltCause, notice := noticeOf s,
           registers := reportOrder.map fun r => (r, readReg s r), eip := s.eip }
  | .running | .fatal => none

end Sys2Proof.Machine
end

