-- ==== Sys2Proof/Safety.lean ====
section
/-! DEFINITION. What claims are stated in terms of: the invariant of the core's state, and safe runs. -/

namespace Sys2Proof.Machine

/-- The status values agree with the engine state (10_state.md R30, R31; 60_exceptions.md R171): they hold their reset
values unless a halt has set them, and each cause goes with the bytes it records. -/
def statusWf (s : State) : Bool :=
  match s.run, s.haltCause with
  | .running, .none => s.haltOpcode == 0 && s.haltModrm == 0
  | .fatal, .none => s.haltOpcode == 0 && s.haltModrm == 0
  | .halted, .unimplementedOpcode => dispatchTable s.haltOpcode == .empty && s.haltModrm == 0
  | .halted, .endOfProgram => s.eip == 0 && s.haltOpcode == 0 && s.haltModrm == 0
  | .halted, .unimplementedModrm =>
    s.haltOpcode == 0xC7 &&
      (s.haltModrm &&& 0xC7 == 0x04 || s.haltModrm &&& 0xC7 == 0x05 || s.haltModrm &&& 0xC7 == 0x44 ||
        s.haltModrm &&& 0xC7 == 0x84)
  | _, _ => false

/-- The invariant of every run: legal parameters (00_scope.md R6), memory in canonical form and within its capacity
(20_memory.md R40), EFLAGS 0 (10_state.md R28), status values in agreement. -/
def State.inv (s : State) : Bool :=
  s.config.valid && Memory.wf s.mem && Memory.below s.mem s.config.memCapacity && s.eflags == 0 && statusWf s

/-- A run from `s` that never stops fatally (60_exceptions.md R174). -/
def NeverFatal (s : State) : Prop := ∀ n, (runLoop n s).run ≠ .fatal

/-- A run from `s` that halts (70_reset_and_hazards.md R205). -/
def Halts (s : State) : Prop := ∃ n, (runLoop n s).run = .halted

/-- A run from `s` that never ends (40_fetch_dispatch_engine.md R104, 70_reset_and_hazards.md R205). -/
def RunsForever (s : State) : Prop := ∀ n, (runLoop n s).run = .running

end Sys2Proof.Machine
end

