-- ==== Sys2Proof/Certificates/Slice0/Obligations.lean ====
section
/-! DEFINITION. The statements for the provers, each with the rule of spec/ it formalises. -/

namespace Sys2Proof.Machine

/-! ## Words the statements share -/

/-- Every general register but `r` is unchanged. -/
def RegsSameBut (s t : State) (r : Reg) : Prop := ∀ q, q ≠ r → readReg t q = readReg s q

/-- Every general register is unchanged. -/
def RegsSame (s t : State) : Prop := ∀ q, readReg t q = readReg s q

/-- Every byte of memory is unchanged. -/
def MemSame (s t : State) : Prop := ∀ a, readByte t a = readByte s a

/-- Every byte of memory outside the `n` from `a` on is unchanged. -/
def MemSameOutside (s t : State) (a n : Nat) : Prop := ∀ x, x < a ∨ a + n ≤ x → readByte t x = readByte s x

/-- EFLAGS, the engine state, the status values and the parameters are unchanged. -/
def EngineSame (s t : State) : Prop :=
  t.eflags = s.eflags ∧ t.run = s.run ∧ t.haltCause = s.haltCause ∧ t.haltOpcode = s.haltOpcode ∧
    t.haltModrm = s.haltModrm ∧ t.config = s.config

/-- No register, flag or memory byte has changed, and EIP has not. -/
def CpuSame (s t : State) : Prop := RegsSame s t ∧ t.eip = s.eip ∧ t.eflags = s.eflags ∧ MemSame s t

/-- A step from `s` raises the bounds violation of address `a`, and the turn of the run loop that ends so changes no
register, flag or memory byte and not EIP (42_mov.md R130 to R141, 43_jmp.md R150, R151; the source itself cannot confirm
what stands after a fatal stop, assumption 3). -/
def StopsAt (s : State) (a : Nat) : Prop := step s = .fault (.boundsViolation a) ∧ CpuSame s (turn s)

/-- Bits `8k+7 : 8k` of a word. -/
def wordByte (v : Word) (k : Nat) : Byte := v.extractLsb' (8 * k) 8

/-- The four bytes of memory from `a` on, the least significant first, are the word `v`. -/
def HoldsWord (s : State) (a : Nat) (v : Word) : Prop := ∀ k, k < 4 → readByte s (a + k) = wordByte v k

/-- `i` completes: register `r` becomes `v`, EIP moves on by `len`, and nothing else changes. -/
def WritesRegister (i : Instr) (s : State) (r : Reg) (v : Word) (len : Word) : Prop :=
  ∃ t, exec i s = .next t ∧ readReg t r = v ∧ t.eip = s.eip + len ∧
    RegsSameBut s t r ∧ MemSame s t ∧ EngineSame s t

/-- The lowest byte address of a 4-byte access at `ea` that is at or above the capacity, when there is one. -/
def lowestOutside (s : State) (ea : Word) : Nat :=
  if s.config.memCapacity ≤ ea.toNat then ea.toNat else s.config.memCapacity

/-- `i` stores `v` at `ea` and completes when all four bytes are in bounds, EIP moving on by `len` and nothing else
changing; otherwise it stops with the bounds violation of the store. -/
def StoresWord (i : Instr) (s : State) (ea v : Word) (len : Word) : Prop :=
  (ea.toNat + 3 < s.config.memCapacity →
    ∃ t, exec i s = .next t ∧ HoldsWord t ea.toNat v ∧ t.eip = s.eip + len ∧
      MemSameOutside s t ea.toNat 4 ∧ RegsSame s t ∧ EngineSame s t) ∧
  (s.config.memCapacity ≤ ea.toNat + 3 → exec i s = .fault (.boundsViolation (lowestOutside s ea)))

/-- `s` is about to execute, in bounds and under legal parameters, an instruction whose opcode byte is `op`. -/
def AtOpcode (s : State) (op : Byte) : Prop :=
  s.config.valid = true ∧ s.run = .running ∧ s.eip.toNat < s.config.memCapacity ∧ readByte s s.eip.toNat = op

/-- The 32-bit little-endian field at byte offset `k` of the instruction at EIP. -/
def fieldWord (s : State) (k : Nat) : Word :=
  wordOfBytes (readByte s (s.eip.toNat + k)) (readByte s (s.eip.toNat + k + 1)) (readByte s (s.eip.toNat + k + 2))
    (readByte s (s.eip.toNat + k + 3))

/-- The byte field at byte offset `k` of the instruction at EIP. -/
def fieldByte (s : State) (k : Nat) : Byte := readByte s (s.eip.toNat + k)

/-- A step of a store instruction of length `len` whose immediate is at offset `immAt` and whose address is `ea`: all
its bytes and all four stored bytes in bounds, it completes; a byte of it out of bounds, the fetch stops it; its bytes in
bounds and the store out of bounds, the store stops it. -/
def StepStores (s : State) (ea : Word) (immAt len : Nat) : Prop :=
  (s.eip.toNat + len ≤ s.config.memCapacity → ea.toNat + 3 < s.config.memCapacity →
    ∃ t, step s = .next t ∧ HoldsWord t ea.toNat (fieldWord s immAt) ∧ t.eip = s.eip + BitVec.ofNat 32 len ∧
      MemSameOutside s t ea.toNat 4 ∧ RegsSame s t ∧ EngineSame s t) ∧
  (s.config.memCapacity < s.eip.toNat + len → StopsAt s s.config.memCapacity) ∧
  (s.eip.toNat + len ≤ s.config.memCapacity → s.config.memCapacity ≤ ea.toNat + 3 → StopsAt s (lowestOutside s ea))

/-- Two cores have the same bytes at the ten addresses from the first one's EIP on. -/
def FetchesAlike (s s' : State) : Prop :=
  ∀ j, j < 10 → readByte s' (s.eip.toNat + j) = readByte s (s.eip.toNat + j)

/-- The eleven bound opcode bytes (30_encoding.md R76). -/
def boundOpcodes : List Byte := [0xB8, 0xB9, 0xBA, 0xBB, 0xBC, 0xBD, 0xBE, 0xBF, 0xC7, 0xE9, 0xEB]

/-- The four values of `m & 0xC7` of the unmodeled ModRM bytes (30_encoding.md R80). -/
def unmodeledPatterns : List Byte := [0x04, 0x05, 0x44, 0x84]

/-- The register of each number (10_state.md R22). -/
def numberedRegs : List (Nat × Reg) :=
  [(0, .eax), (1, .ecx), (2, .edx), (3, .ebx), (4, .esp), (5, .ebp), (6, .esi), (7, .edi)]

end Sys2Proof.Machine

open Sys2Proof Sys2Proof.Machine

/-! ## Encoding -/

/-- 30_encoding.md R81's example bytes and others of 42_mov.md and 43_jmp.md, one or more of each family, decode to the
instruction they stand for. The ModRM positions are the spec's decision D3 (assumption 8), the register numbers its D15
(assumption 9); that `C7 04` is whole, the byte after it left unread, is its D4 (42_mov.md R142, assumption 6). -/
def Obligations.SampleWordsDecodeToTheirInstructions : Prop :=
  decode [0xB8, 0x78, 0x56, 0x34, 0x12] = .instr (.movEax 0x12345678) [] ∧
  decode [0xBF, 0xEF, 0xBE, 0xAD, 0xDE] = .instr (.movEdi 0xDEADBEEF) [] ∧
  decode [0xC7, 0xC5, 0x01, 0x00, 0x00, 0x00] = .instr (.movRmReg 0 .ebp 1) [] ∧
  decode [0xC7, 0x03, 0xEF, 0xBE, 0xAD, 0xDE] = .instr (.movMemLow 0 .ebx 0xDEADBEEF) [] ∧
  decode [0xC7, 0x43, 0x04, 0x01, 0x00, 0x00, 0x00] = .instr (.movMemDisp8Low 0 .ebx 4 1) [] ∧
  decode [0xC7, 0x86, 0x00, 0x10, 0x00, 0x00, 0x44, 0x33, 0x22, 0x11] =
    .instr (.movMemDisp32High 0 .esi 0x1000 0x11223344) [] ∧
  decode [0xC7, 0x04, 0x24] = .instr (.movUnmodeledNoDispSib 0) [0x24] ∧
  decode [0xEB, 0xFE] = .instr (.jmpRel8 0xFE) [] ∧
  decode [0xE9, 0x0B, 0x00, 0x00, 0x00] = .instr (.jmpRel32 0x0B) []

/-- For every well-formed instruction, with every field at every value, the decoder reads it back from its encoding and
leaves the bytes after it (30_encoding.md R71 to R74). Both sides take the ModRM positions from assumption 8, the register
numbers from assumption 9 and the two bytes of an unmodeled encoding from assumption 6. -/
def Obligations.DecodeOfEncodeIsTheInstruction : Prop :=
  ∀ (i : Instr) (rest : List Byte), i.wf = true → decode (encode i ++ rest) = .instr i rest

/-- What the decoder reads is well formed, and the bytes it read are that instruction's encoding: no two byte sequences
stand for one instruction (30_encoding.md R71 to R74, R79). Both sides take the ModRM positions from assumption 8, the
register numbers from assumption 9 and the two bytes of an unmodeled encoding from assumption 6. -/
def Obligations.DecodedBytesAreTheEncoding : Prop :=
  ∀ (bs : List Byte) (i : Instr) (rest : List Byte),
    decode bs = .instr i rest → i.wf = true ∧ bs = encode i ++ rest

/-- 30_encoding.md R75 and 40_fetch_dispatch_engine.md R95: what each of the 256 slots holds, and how many are empty.
That registers 1 to 7 are numbered in the order of `numberedRegs` is the spec's decision D15 (10_state.md R22,
assumption 9). -/
def Obligations.DispatchTableIsTheOpcodeMap : Prop :=
  (∀ op : Byte,
    (0xB8 ≤ op.toNat ∧ op.toNat ≤ 0xBF →
      dispatchTable op = .movR32Imm32 ∧ (op.toNat - 0xB8, opcodeReg op) ∈ numberedRegs) ∧
    (op = 0xC7 → dispatchTable op = .movRm32Imm32) ∧
    (op = 0xE9 → dispatchTable op = .nearJump) ∧
    (op = 0xEB → dispatchTable op = .shortJump) ∧
    (op ∉ boundOpcodes → dispatchTable op = .empty)) ∧
  ((List.range 256).filter fun n => dispatchTable (BitVec.ofNat 8 n) == .empty).length = 245

/-- The decoder answers "unbound" for exactly the opcode bytes that are not bound, whatever follows them
(30_encoding.md R77, R78). -/
def Obligations.DecoderFindsExactlyTheUnboundOpcodes : Prop :=
  ∀ (op op' : Byte) (rest : List Byte), decode (op :: rest) = .unboundOpcode op' ↔ op' = op ∧ op ∉ boundOpcodes

/-- 30_encoding.md R83: the rows of spec/opcode_table.json are pairwise disjoint, a decoded instruction's first two bytes
select its row, and bytes that select no row have an unbound opcode. The convention of match and mask over bytes 0 and 1 and
the ModRM positions are the spec's decision D3 (assumption 8), the four rows without a length its D4 (assumption 6). -/
def Obligations.TableRowsAreDisjointAndSelected : Prop :=
  opcodeTable.length = 23 ∧
  opcodeTable.Pairwise (fun r q => ∀ b0 b1 : Byte, ¬(r.selects b0 b1 = true ∧ q.selects b0 b1 = true)) ∧
  (∀ (b0 b1 : Byte) (more rest : List Byte) (i : Instr),
    decode (b0 :: b1 :: more) = .instr i rest → i.row ∈ opcodeTable ∧ i.row.selects b0 b1 = true) ∧
  (∀ b0 b1 : Byte, (∀ r ∈ opcodeTable, r.selects b0 b1 = false) ↔ dispatchTable b0 = .empty)

/-- 30_encoding.md R80 and 41_modrm.md R116: the ModRM bytes that select an instruction without a length are those with
`m & 0xC7` in the four patterns, 32 of the 256, and no byte after the ModRM byte takes part. The choice of these
encodings is the spec's decision D4 (assumption 6). -/
def Obligations.UnmodeledModrmBytesAreTheFourGroups : Prop :=
  (∀ (m : Byte) (bs : List Byte),
    (m &&& 0xC7 ∈ unmodeledPatterns → ∃ i, decode (0xC7 :: m :: bs) = .instr i bs ∧ i.row.length = none) ∧
    (∀ i rest, decode (0xC7 :: m :: bs) = .instr i rest → i.row.length = none → m &&& 0xC7 ∈ unmodeledPatterns)) ∧
  ((List.range 256).filter fun n => decide (BitVec.ofNat 8 n &&& 0xC7 ∈ unmodeledPatterns)).length = 32

/-- The decoder asks for more bytes exactly when those it has are a proper beginning of some instruction
(30_encoding.md R71). That an unmodeled encoding is whole after its ModRM byte is the spec's decision D4 (assumption 6). -/
def Obligations.TruncatedBytesAreProperBeginnings : Prop :=
  ∀ bs : List Byte,
    decode bs = .truncated ↔ ∃ (i : Instr) (more : List Byte), i.wf = true ∧ more ≠ [] ∧ encode i = bs ++ more

/-! ## Registers, sign extension, memory -/

/-- 00_scope.md R9: sign extension of a byte for every bit pattern, with the rule's five values; of a 32-bit value, the
value; and zero extension. -/
def Obligations.SignExtensionOfEveryByte : Prop :=
  (∀ b : Byte,
    (b.getLsbD 7 = true → sext8 b = 0xFFFFFF00 ||| b.zeroExtend 32) ∧
    (b.getLsbD 7 = false → sext8 b = 0x00000000 ||| b.zeroExtend 32) ∧
    zext8 b = 0x00000000 ||| b.zeroExtend 32) ∧
  sext8 0x00 = 0x00000000 ∧ sext8 0x7F = 0x0000007F ∧ sext8 0x80 = 0xFFFFFF80 ∧ sext8 0xFE = 0xFFFFFFFE ∧
  sext8 0xFF = 0xFFFFFFFF ∧
  ∀ d : Word, d.signExtend 32 = d

/-- 10_state.md R23: a register read returns what was last written, a write replaces one register whole and changes
nothing else, and no register is hard-wired. -/
def Obligations.RegisterWriteReplacesOneRegister : Prop :=
  ∀ (s : State) (r : Reg) (v : Word),
    readReg (writeReg s r v) r = v ∧ RegsSameBut s (writeReg s r v) r ∧ MemSame s (writeReg s r v) ∧
      (writeReg s r v).eip = s.eip ∧ EngineSame s (writeReg s r v)

/-- 20_memory.md R43: the byte read. It is a function of the state and changes none. -/
def Obligations.ByteReadIsBoundsChecked : Prop :=
  ∀ (s : State) (addr : Word),
    (s.config.memCapacity ≤ addr.toNat → memRead8 s addr = .error (.boundsViolation addr.toNat)) ∧
    (addr.toNat < s.config.memCapacity → memRead8 s addr = .ok (readByte s addr.toNat))

/-- 20_memory.md R44: the four-byte read is little-endian and in bounds exactly when all four bytes are; the address
reported otherwise is the lowest out of bounds (decision D9, assumption 4). -/
def Obligations.WordReadIsLittleEndianAndBoundsChecked : Prop :=
  ∀ (s : State) (addr : Word),
    (addr.toNat + 3 < s.config.memCapacity →
      ∃ w, memRead32 s addr = .ok w ∧
        w.toNat = (readByte s addr.toNat).toNat + 2 ^ 8 * (readByte s (addr.toNat + 1)).toNat +
          2 ^ 16 * (readByte s (addr.toNat + 2)).toNat + 2 ^ 24 * (readByte s (addr.toNat + 3)).toNat) ∧
    (s.config.memCapacity ≤ addr.toNat + 3 →
      ∃ a, memRead32 s addr = .error (.boundsViolation a) ∧ addr.toNat ≤ a ∧ a ≤ addr.toNat + 3 ∧
        s.config.memCapacity ≤ a ∧ ∀ x, addr.toNat ≤ x → s.config.memCapacity ≤ x → a ≤ x)

/-- 20_memory.md R45 and R47: the store writes the four bytes in order, is read back whole, leaves everything else
alone, and writes nothing when a byte is out of bounds (decisions D8 and D9, assumptions 4 and 12). -/
def Obligations.StoreThenLoadReturnsTheWord : Prop :=
  ∀ (s : State) (addr v : Word),
    (addr.toNat + 3 < s.config.memCapacity →
      ∃ t, memWrite32 s addr v = .ok t ∧ HoldsWord t addr.toNat v ∧ memRead32 t addr = .ok v ∧
        MemSameOutside s t addr.toNat 4 ∧ RegsSame s t ∧ t.eip = s.eip ∧ EngineSame s t) ∧
    (s.config.memCapacity ≤ addr.toNat + 3 →
      memWrite32 s addr v = .error (.boundsViolation (lowestOutside s addr)))

/-- 20_memory.md R46: the loader copies the whole image or fails; nothing but the image's bytes changes. -/
def Obligations.LoadCopiesTheImageOrFails : Prop :=
  ∀ (s : State) (offset : Nat) (bytes : List Byte),
    (offset + bytes.length ≤ s.config.memCapacity →
      ∃ t, load offset bytes s = .next t ∧ (∀ k (h : k < bytes.length), readByte t (offset + k) = bytes[k]) ∧
        MemSameOutside s t offset bytes.length ∧ RegsSame s t ∧ t.eip = s.eip ∧ EngineSame s t) ∧
    (s.config.memCapacity < offset + bytes.length → load offset bytes s = .fault .imageTooLarge)

/-- 41_modrm.md R112 to R115: the effective addresses as integers modulo `2^32` (the wrap is the spec's decision D6,
assumption 10). -/
def Obligations.EffectiveAddressesAreSumsModulo : Prop :=
  ∀ (s : State) (base : Reg),
    eaBase s base = readReg s base ∧
    (∀ d : Byte, ((eaDisp8 s base d).toNat : Int) = ((readReg s base).toNat + d.toInt) % 2 ^ 32) ∧
    (∀ d : Word, ((eaDisp32 s base d).toNat : Int) = ((readReg s base).toNat + d.toInt) % 2 ^ 32)

/-! ## Instructions: completion, result and frame -/

/-- 42_mov.md R130 to R137: each of the eight short moves writes its register, moves EIP on by 5 and changes nothing
else. -/
def Obligations.ShortMovesWriteTheirRegister : Prop :=
  ∀ (s : State) (imm : Word),
    WritesRegister (.movEax imm) s .eax imm 5 ∧ WritesRegister (.movEcx imm) s .ecx imm 5 ∧
    WritesRegister (.movEdx imm) s .edx imm 5 ∧ WritesRegister (.movEbx imm) s .ebx imm 5 ∧
    WritesRegister (.movEsp imm) s .esp imm 5 ∧ WritesRegister (.movEbp imm) s .ebp imm 5 ∧
    WritesRegister (.movEsi imm) s .esi imm 5 ∧ WritesRegister (.movEdi imm) s .edi imm 5

/-- 42_mov.md R138: the register form of opcode `0xC7` writes the register of rm, whatever reg is (decision D5,
assumption 7), moves EIP on by 6 and changes nothing else. -/
def Obligations.RegisterFormWritesTheRmRegister : Prop :=
  ∀ (s : State) (reg : BitVec 3) (rm : Reg) (imm : Word), WritesRegister (.movRmReg reg rm imm) s rm imm 6

/-- 42_mov.md R139 to R141: each of the eight memory rows of opcode `0xC7` stores its immediate at its effective address
and completes when the four bytes are in bounds, and stops with the bounds violation otherwise; reg is ignored (decision
D5, assumption 7), a store out of bounds writes nothing (D8, assumption 12), the addresses wrap (D6, assumption 10), and
the address of the stop is the lowest out of bounds (D9, assumption 4). -/
def Obligations.MemoryFormsStoreTheImmediate : Prop :=
  ∀ (s : State) (reg : BitVec 3) (rm : Reg) (imm : Word),
    StoresWord (.movMemLow reg rm imm) s (eaBase s rm) imm 6 ∧
    StoresWord (.movMemHigh reg rm imm) s (eaBase s rm) imm 6 ∧
    (∀ d : Byte,
      StoresWord (.movMemDisp8Low reg rm d imm) s (eaDisp8 s rm d) imm 7 ∧
      StoresWord (.movMemDisp8Ebp reg d imm) s (eaDisp8 s .ebp d) imm 7 ∧
      StoresWord (.movMemDisp8High reg rm d imm) s (eaDisp8 s rm d) imm 7) ∧
    (∀ d : Word,
      StoresWord (.movMemDisp32Low reg rm d imm) s (eaDisp32 s rm d) imm 10 ∧
      StoresWord (.movMemDisp32Ebp reg d imm) s (eaDisp32 s .ebp d) imm 10 ∧
      StoresWord (.movMemDisp32High reg rm d imm) s (eaDisp32 s rm d) imm 10)

/-- 43_jmp.md R150 and R151: both jumps complete with EIP the sum modulo `2^32` and change nothing else; the 32-bit
displacement read as signed or as unsigned gives the same EIP. -/
def Obligations.JumpsOnlyMoveEip : Prop :=
  (∀ (s : State) (d : Byte), ∃ t, exec (.jmpRel8 d) s = .next t ∧
    (t.eip.toNat : Int) = (s.eip.toNat + d.toInt + 2) % 2 ^ 32 ∧ RegsSame s t ∧ MemSame s t ∧ EngineSame s t) ∧
  (∀ (s : State) (d : Word), ∃ t, exec (.jmpRel32 d) s = .next t ∧
    (t.eip.toNat : Int) = (s.eip.toNat + d.toInt + 5) % 2 ^ 32 ∧
    t.eip.toNat = (s.eip.toNat + d.toNat + 5) % 2 ^ 32 ∧ RegsSame s t ∧ MemSame s t ∧ EngineSame s t)

/-- 41_modrm.md R116 and 42_mov.md R142, the spec's decision D4 and the model's choice of assumption 6: each unmodeled row
completes by halting the engine with its ModRM byte recorded and everything else unchanged. The positions of mod, reg and
rm in that byte are the spec's decision D3 (assumption 8). -/
def Obligations.UnmodeledRowsHaltTheEngine : Prop :=
  ∀ (s : State) (reg : BitVec 3),
    exec (.movUnmodeledNoDispSib reg) s =
      .next { s with run := .halted, haltCause := .unimplementedModrm, haltOpcode := 0xC7,
                     haltModrm := (0b00#2 ++ reg ++ 0b100#3 : BitVec 8) } ∧
    exec (.movUnmodeledNoBase reg) s =
      .next { s with run := .halted, haltCause := .unimplementedModrm, haltOpcode := 0xC7,
                     haltModrm := (0b00#2 ++ reg ++ 0b101#3 : BitVec 8) } ∧
    exec (.movUnmodeledDisp8Sib reg) s =
      .next { s with run := .halted, haltCause := .unimplementedModrm, haltOpcode := 0xC7,
                     haltModrm := (0b01#2 ++ reg ++ 0b100#3 : BitVec 8) } ∧
    exec (.movUnmodeledDisp32Sib reg) s =
      .next { s with run := .halted, haltCause := .unimplementedModrm, haltOpcode := 0xC7,
                     haltModrm := (0b10#2 ++ reg ++ 0b100#3 : BitVec 8) }

/-! ## The step -/

/-- 40_fetch_dispatch_engine.md R99: when the bytes at EIP decode to `i`, the step is `exec i` with the sentinel tested
after it; `exec` moves EIP itself, and refuses nothing. -/
def Obligations.StepRunsTheDecodedInstruction : Prop :=
  ∀ (s : State) (i : Instr) (rest : List Byte), s.run = .running → decode (fetchWindow s) = .instr i rest →
    (∀ t, exec i s = .next t → step s = .next (checkSentinel t)) ∧
    (∀ f, exec i s = .fault f → step s = .fault f)

/-- 40_fetch_dispatch_engine.md R99, 30_encoding.md R72: a running core whose memory holds the encoding of a well-formed
instruction at EIP, in bounds, executes that instruction, whatever bytes follow. -/
def Obligations.EncodingAtEipIsExecuted : Prop :=
  ∀ (s : State) (i : Instr), s.config.valid = true → s.run = .running → i.wf = true →
    s.eip.toNat + (encode i).length ≤ s.config.memCapacity →
    (∀ k (h : k < (encode i).length), readByte s (s.eip.toNat + k) = (encode i)[k]) →
    step s = afterHandler (exec i s)

/-- 42_mov.md R130 to R137, the whole step: opcode `0xB8 + r` writes the immediate at EIP + 1 to register number `r` and
moves EIP on by 5, nothing else changing; with a byte of it out of bounds the step stops at the lowest such byte and
changes nothing (60_exceptions.md R177). The register numbers are the spec's decision D15 (assumption 9); the address of
the stop and the state after it are its decision D9 (assumptions 3 and 4). -/
def Obligations.ShortMoveStep : Prop :=
  ∀ (s : State) (n : Nat) (r : Reg), (n, r) ∈ numberedRegs → AtOpcode s (0xB8 + BitVec.ofNat 8 n) →
    (s.eip.toNat + 4 < s.config.memCapacity →
      step s = .next { writeReg s r (fieldWord s 1) with eip := s.eip + 5 }) ∧
    (s.config.memCapacity ≤ s.eip.toNat + 4 → StopsAt s s.config.memCapacity)

/-- 42_mov.md R138, the whole step: opcode `0xC7` with mod `11`. Any reg is the spec's decision D5 (assumption 7), the ModRM
positions its D3 (assumption 8), the register numbers its D15 (assumption 9), the address of the stop and the state after
it (60_exceptions.md R177) its D9 (assumptions 3 and 4). -/
def Obligations.RegisterFormStep : Prop :=
  ∀ (s : State), AtOpcode s 0xC7 →
    (s.config.memCapacity ≤ s.eip.toNat + 1 → StopsAt s (s.eip.toNat + 1)) ∧
    (∀ r : Reg, s.eip.toNat + 1 < s.config.memCapacity → (fieldByte s 1).toNat / 64 = 3 →
      ((fieldByte s 1).toNat % 8, r) ∈ numberedRegs →
      (s.eip.toNat + 5 < s.config.memCapacity →
        step s = .next { writeReg s r (fieldWord s 2) with eip := s.eip + 6 }) ∧
      (s.config.memCapacity ≤ s.eip.toNat + 5 → StopsAt s s.config.memCapacity))

/-- 42_mov.md R139, the whole step: opcode `0xC7` with mod `00` and rm not `100` and not `101`. Any reg is the spec's
decision D5 (assumption 7), the ModRM positions its D3 (assumption 8), the register numbers its D15 (assumption 9), the
all-or-nothing store its D8 (assumption 12), the address of the stop and the state after it (60_exceptions.md R177) its D9
(assumptions 3 and 4). -/
def Obligations.BaseFormStep : Prop :=
  ∀ (s : State) (base : Reg), AtOpcode s 0xC7 → s.eip.toNat + 1 < s.config.memCapacity →
    (fieldByte s 1).toNat / 64 = 0 → ((fieldByte s 1).toNat % 8, base) ∈ numberedRegs →
    (fieldByte s 1).toNat % 8 ≠ 4 → (fieldByte s 1).toNat % 8 ≠ 5 →
    StepStores s (readReg s base) 2 6

/-- 42_mov.md R140, the whole step: opcode `0xC7` with mod `01` and rm not `100`. The wrap of the address is the spec's
decision D6 (assumption 10), any reg its D5 (assumption 7), the ModRM positions its D3 (assumption 8), the register numbers
its D15 (assumption 9), the all-or-nothing store its D8 (assumption 12), the address of the stop and the state after it
(60_exceptions.md R177) its D9 (assumptions 3 and 4). -/
def Obligations.Disp8FormStep : Prop :=
  ∀ (s : State) (base : Reg) (ea : Word), AtOpcode s 0xC7 → s.eip.toNat + 1 < s.config.memCapacity →
    (fieldByte s 1).toNat / 64 = 1 → ((fieldByte s 1).toNat % 8, base) ∈ numberedRegs →
    (fieldByte s 1).toNat % 8 ≠ 4 →
    (ea.toNat : Int) = ((readReg s base).toNat + (fieldByte s 2).toInt) % 2 ^ 32 →
    StepStores s ea 3 7

/-- 42_mov.md R141, the whole step: opcode `0xC7` with mod `10` and rm not `100`. The wrap of the address is the spec's
decision D6 (assumption 10), any reg its D5 (assumption 7), the ModRM positions its D3 (assumption 8), the register numbers
its D15 (assumption 9), the all-or-nothing store its D8 (assumption 12), the address of the stop and the state after it
(60_exceptions.md R177) its D9 (assumptions 3 and 4). -/
def Obligations.Disp32FormStep : Prop :=
  ∀ (s : State) (base : Reg) (ea : Word), AtOpcode s 0xC7 → s.eip.toNat + 1 < s.config.memCapacity →
    (fieldByte s 1).toNat / 64 = 2 → ((fieldByte s 1).toNat % 8, base) ∈ numberedRegs →
    (fieldByte s 1).toNat % 8 ≠ 4 →
    (ea.toNat : Int) = ((readReg s base).toNat + (fieldWord s 2).toInt) % 2 ^ 32 →
    StepStores s ea 6 10

/-- 42_mov.md R142 and 41_modrm.md R116, the spec's decision D4 and the model's choice of assumption 6: an unmodeled
encoding halts as soon as its ModRM byte is read, wherever memory ends and whatever EIP is; that the cause is this one at
EIP 0 too is the spec's decision D10 (assumption 14). -/
def Obligations.UnmodeledModrmStep : Prop :=
  ∀ (s : State), AtOpcode s 0xC7 → s.eip.toNat + 1 < s.config.memCapacity →
    fieldByte s 1 &&& 0xC7 ∈ unmodeledPatterns →
    step s = .next { s with run := .halted, haltCause := .unimplementedModrm, haltOpcode := 0xC7,
                            haltModrm := fieldByte s 1 }

/-- 43_jmp.md R150, the whole step: the target, the sentinel at target 0, the displacement out of bounds. That the registers,
EFLAGS and memory too are as before after that stop is 60_exceptions.md R177, the spec's decision D9 (assumption 3). -/
def Obligations.ShortJumpStep : Prop :=
  ∀ (s : State) (target : Word), AtOpcode s 0xEB →
    (s.eip.toNat + 1 < s.config.memCapacity →
      (target.toNat : Int) = (s.eip.toNat + (fieldByte s 1).toInt + 2) % 2 ^ 32 →
      (target ≠ 0 → step s = .next { s with eip := target }) ∧
      (target = 0 → step s = .next { s with eip := 0, run := .halted, haltCause := .endOfProgram })) ∧
    (s.config.memCapacity ≤ s.eip.toNat + 1 → StopsAt s (s.eip.toNat + 1))

/-- 43_jmp.md R151, the whole step: the target, the sentinel at target 0, the displacement out of bounds. That the registers,
EFLAGS and memory too are as before after that stop is 60_exceptions.md R177; this and the address of the stop are the
spec's decision D9 (assumptions 3 and 4). -/
def Obligations.NearJumpStep : Prop :=
  ∀ (s : State) (target : Word), AtOpcode s 0xE9 →
    (s.eip.toNat + 4 < s.config.memCapacity →
      (target.toNat : Int) = (s.eip.toNat + (fieldWord s 1).toInt + 5) % 2 ^ 32 →
      (target ≠ 0 → step s = .next { s with eip := target }) ∧
      (target = 0 → step s = .next { s with eip := 0, run := .halted, haltCause := .endOfProgram })) ∧
    (s.config.memCapacity ≤ s.eip.toNat + 4 → StopsAt s s.config.memCapacity)

/-- 60_exceptions.md R172: an unbound opcode byte halts the engine and changes nothing else. That the cause is this one at
EIP 0 too, and not END_OF_PROGRAM, is the spec's decision D10 (60_exceptions.md R176, assumption 14). -/
def Obligations.UnboundOpcodeHaltsTheEngine : Prop :=
  ∀ (s : State) (op : Byte), s.run = .running → s.eip.toNat < s.config.memCapacity →
    readByte s s.eip.toNat = op → op ∉ boundOpcodes →
    step s = .next { s with run := .halted, haltCause := .unimplementedOpcode, haltOpcode := op }

/-- 10_state.md R27 and 60_exceptions.md R174, R176 (order 1): EIP at or above the capacity is fatal at the opcode fetch,
and nothing but RUN changes (decision D9, assumption 3). -/
def Obligations.OpcodeFetchOutOfBoundsIsFatal : Prop :=
  ∀ s : State, s.run = .running → s.config.memCapacity ≤ s.eip.toNat →
    step s = .fault (.boundsViolation s.eip.toNat) ∧ turn s = { s with run := .fatal }

/-- 60_exceptions.md R173 and 40_fetch_dispatch_engine.md R100: after a handler that leaves the engine running, EIP 0 halts
it with the handler's effect kept, and any other EIP does not; a handler that halted the engine keeps its own cause
(decision D10, assumption 14). -/
def Obligations.SentinelIsTestedAfterTheHandler : Prop :=
  ∀ (s t : State) (i : Instr) (rest : List Byte), s.run = .running → decode (fetchWindow s) = .instr i rest →
    exec i s = .next t →
    (t.run = .running → t.eip = 0 → step s = .next { t with run := .halted, haltCause := .endOfProgram }) ∧
    (t.run = .running → t.eip ≠ 0 → step s = .next t) ∧
    (t.run ≠ .running → step s = .next t)

/-- 10_state.md R30 and 60_exceptions.md R179 (decision D19, assumption 5): outside RUNNING no step is defined, and the
run loop stays where it is for ever. -/
def Obligations.StoppedEngineStaysStopped : Prop :=
  ∀ s : State, s.run ≠ .running → step s = .fault .engineStopped ∧ ∀ n, runLoop n s = s

/-- 40_fetch_dispatch_engine.md R99, R98 and 41_modrm.md R118, 42_mov.md, 43_jmp.md: under legal parameters the step is the
spec's pseudocode, faults and their addresses and the order of stop events (60_exceptions.md R176) included. The addresses
rest on assumption 4, the halt of an unmodeled encoding on assumption 6, the order of stop events on assumption 14, the
window the step reads on assumption 15. -/
def Obligations.StepIsThePseudocodeStep : Prop :=
  ∀ s : State, s.config.valid = true → step s = pseudoStep s

/-! ## The whole machine -/

/-- Every step keeps the invariant: legal parameters, memory canonical and within capacity, EFLAGS 0, status values in
agreement (00_scope.md R6, 10_state.md R28, R31, 20_memory.md R40). That a halt records these causes and bytes, and their
values at reset, rest on assumptions 6, 13 and 14, that EFLAGS is 0 on assumption 16. -/
def Obligations.StepKeepsTheInvariant : Prop :=
  ∀ s t : State, s.inv = true → step s = .next t → t.inv = true

/-- The reset states satisfy the invariant (10_state.md R36; the status values are the spec's decision D11, assumption 13,
EFLAGS its D14, assumption 16). -/
def Obligations.ResetSatisfiesTheInvariant : Prop :=
  State.reset.inv = true ∧ ∀ c : Config, c.valid = true → (State.resetWith c).inv = true

/-- From any image that loads, under any legal parameters, every state of the run satisfies the invariant
(70_reset_and_hazards.md R200, 40_fetch_dispatch_engine.md R101); that a fatal stop leaves such a state is the spec's
decision D9 (assumption 3). -/
def Obligations.EveryRunSatisfiesTheInvariant : Prop :=
  ∀ (c : Config) (image : List Byte) (s : State) (n : Nat), c.valid = true → boot c image = .next s →
    (runLoop n s).inv = true

/-- 10_state.md R36: every reset value, for the default and for the flat convention. RUN, HALT_CAUSE, HALT_OPCODE and
HALT_MODRM are the spec's decision D11 (assumption 13), EFLAGS its D14 (assumption 16), the parameters assumption 1. -/
def Obligations.ResetValues : Prop :=
  (∀ (c : Config) (s : State), s = State.resetWith c →
    readReg s .eax = 0 ∧ readReg s .ecx = 0 ∧ readReg s .edx = 0 ∧ readReg s .ebx = 0 ∧
    readReg s .esp = c.loadOffset ∧ readReg s .ebp = 0 ∧ readReg s .esi = 0 ∧ readReg s .edi = 0 ∧
    s.eip = c.loadOffset ∧ s.eflags = 0 ∧ (∀ a, readByte s a = 0x00) ∧ s.run = .running ∧
    s.haltCause = .none ∧ s.haltOpcode = 0x00 ∧ s.haltModrm = 0x00 ∧ s.config = c) ∧
  State.reset.eip = 0x00007C00 ∧ readReg State.reset .esp = 0x00007C00 ∧
  (State.resetWith Config.flat).eip = 0 ∧ readReg (State.resetWith Config.flat) .esp = 0

/-- 70_reset_and_hazards.md R200 and 20_memory.md R46: after reset and load the image stands at LOAD_OFFSET, all other
memory is 0, everything else is as after reset, and the first opcode fetched is the image's first byte; an image too
large fails. -/
def Obligations.BootPlacesTheImage : Prop :=
  ∀ (c : Config) (image : List Byte),
    (c.loadOffset.toNat + image.length ≤ c.memCapacity →
      ∃ s, boot c image = .next s ∧
        (∀ k (h : k < image.length), readByte s (c.loadOffset.toNat + k) = image[k]) ∧
        (∀ a, a < c.loadOffset.toNat ∨ c.loadOffset.toNat + image.length ≤ a → readByte s a = 0x00) ∧
        s = { State.resetWith c with mem := s.mem } ∧
        (∀ b rest, image = b :: rest → code8 s 0 = .ok b)) ∧
    (c.memCapacity < c.loadOffset.toNat + image.length → boot c image = .fault .imageTooLarge)

/-- 10_state.md R28 and 00_scope.md R13: no step changes EFLAGS (the spec's decision D14, assumption 16) or a parameter
(assumption 1). -/
def Obligations.FlagsAndParametersNeverChange : Prop :=
  ∀ s t : State, step s = .next t → flagsWord t = flagsWord s ∧ t.config = s.config

/-- 42_mov.md R143: a step changes at most one general register, memory only if it changes none, and of memory at most four
neighbouring bytes. -/
def Obligations.StepChangesOneRegisterOrMemory : Prop :=
  ∀ s t : State, step s = .next t →
    (∀ q r, readReg t q ≠ readReg s q → readReg t r ≠ readReg s r → q = r) ∧
    (∀ q, readReg t q ≠ readReg s q → MemSame s t) ∧
    (∀ x y, readByte t x ≠ readByte s x → readByte t y ≠ readByte s y → x < y + 4)

/-- 10_state.md R24 and R25, 42_mov.md R134 and R138: ESP changes only where an instruction names it, by opcode `0xBC` or by
opcode `0xC7` with mod `11` and rm `100`; nothing uses it implicitly. That ESP has number 4 is the spec's decision D15
(assumption 9), the ModRM positions are its D3 (assumption 8). -/
def Obligations.EspChangesOnlyByName : Prop :=
  ∀ s t : State, s.config.valid = true → step s = .next t → readReg t .esp ≠ readReg s .esp →
    fieldByte s 0 = 0xBC ∨
      (fieldByte s 0 = 0xC7 ∧ (fieldByte s 1).toNat / 64 = 3 ∧ (fieldByte s 1).toNat % 8 = 4)

/-- 40_fetch_dispatch_engine.md R100: under legal parameters only a jump ends a program by the sentinel
(what the sentinel test follows is the spec's decision D10, assumption 14). -/
def Obligations.OnlyJumpsEndTheProgram : Prop :=
  ∀ s t : State, s.config.valid = true → s.haltCause ≠ .endOfProgram → step s = .next t →
    t.haltCause = .endOfProgram → fieldByte s 0 = 0xEB ∨ fieldByte s 0 = 0xE9

/-- 60_exceptions.md R177: a halt for an unbound opcode or an unmodeled encoding leaves registers, EFLAGS, EIP and memory
exactly as they were (for the second, the spec's decision D4, assumption 6). -/
def Obligations.UnimplementedHaltsArePrecise : Prop :=
  ∀ s t : State, step s = .next t → t.run = .halted →
    t.haltCause = .unimplementedOpcode ∨ t.haltCause = .unimplementedModrm →
    t = { s with run := .halted, haltCause := t.haltCause, haltOpcode := t.haltOpcode, haltModrm := t.haltModrm }

/-- No step is refused; the only fault of a running core is a bounds violation at an address at or above the capacity,
and it takes the run loop to FATAL with nothing else changed (60_exceptions.md R170, R171, R174, R177; FATAL is the spec's
decision D9, assumption 3, and the address its choice too, assumption 4). -/
def Obligations.StepNeverRefusesAndFaultsOnlyOutOfBounds : Prop :=
  ∀ s : State,
    (∀ r, step s ≠ .refused r) ∧
    (∀ f, step s = .fault f → s.run = .running →
      (∃ a, f = .boundsViolation a ∧ s.config.memCapacity ≤ a) ∧ turn s = { s with run := .fatal })

/-- 43_jmp.md R152, the path of one step: two cores that differ only in their registers and both complete a step come to the
same EIP, engine state and status. Over several steps R152 excepts self-modifying code, which
`RunsPathDependsOnRegistersOnlyThroughCode` says: a store whose address comes from a register can change later code. -/
def Obligations.PathDoesNotDependOnRegisters : Prop :=
  ∀ (s t t' : State) (f : RegFile), step s = .next t → step { s with regs := f } = .next t' →
    t'.eip = t.eip ∧ EngineSame t t'

/-- 44_unbound_and_absent.md R163: memory influences a step only as instruction bytes. Two cores that differ only in
memory bytes outside the ten from EIP on make the same step: same registers, EIP and status, and each byte of memory
either kept in both or written alike. -/
def Obligations.MemoryMattersOnlyAsInstructionBytes : Prop :=
  ∀ (s t : State) (m : Memory), s.config.valid = true →
    (∀ k, k < 10 → Memory.read m (s.eip.toNat + k) = readByte s (s.eip.toNat + k)) → step s = .next t →
    ∃ t', step { s with mem := m } = .next t' ∧ t'.regs = t.regs ∧ t'.eip = t.eip ∧ EngineSame t t' ∧
      ∀ a, (readByte t a = readByte s a ∧ readByte t' a = Memory.read m a) ∨ readByte t' a = readByte t a

/-- 20_memory.md R56: a stored word is what the next fetch at its address reads, with no action by the program. -/
def Obligations.StoreIsSeenByTheNextFetch : Prop :=
  ∀ (s t : State) (ea v : Word), s.config.valid = true → memWrite32 s ea v = .ok t →
    ∃ rest, fetchWindow (setEip t ea) = wordByte v 0 :: wordByte v 1 :: wordByte v 2 :: wordByte v 3 :: rest

/-- 40_fetch_dispatch_engine.md R104: `EB FE` at an address other than 0 runs for ever in the same state, and at address 0
ends the program in one step (the test before no first step is the spec's decision D17, assumption 14). -/
def Obligations.JumpToItselfRunsForever : Prop :=
  ∀ s : State, AtOpcode s 0xEB → s.eip.toNat + 1 < s.config.memCapacity → fieldByte s 1 = 0xFE →
    (s.eip ≠ 0 → RunsForever s ∧ ∀ n, runLoop n s = s) ∧
    (s.eip = 0 → Halts s ∧ (turn s).run = .halted ∧ (turn s).haltCause = .endOfProgram)

/-- 40_fetch_dispatch_engine.md R103, 60_exceptions.md R171: what a halted core reports (the order of the registers is
assumption 18, the codes decision D11, assumption 13). -/
def Obligations.ReportShowsTheHaltedState : Prop :=
  (∀ s : State, s.run ≠ .halted → report s = none) ∧
  (∀ s : State, s.run = .halted → ∃ r, report s = some r ∧ r.cause = s.haltCause ∧ r.eip = s.eip ∧
    r.registers = [(.eax, readReg s .eax), (.ecx, readReg s .ecx), (.edx, readReg s .edx), (.ebx, readReg s .ebx),
      (.esp, readReg s .esp), (.ebp, readReg s .ebp), (.esi, readReg s .esi), (.edi, readReg s .edi)] ∧
    (s.haltCause = .unimplementedOpcode → r.notice = .opcode s.haltOpcode) ∧
    (s.haltCause = .unimplementedModrm → r.notice = .modrm s.haltOpcode s.haltModrm) ∧
    (s.haltCause = .endOfProgram → r.notice = .none)) ∧
  HaltCause.code .none = 0 ∧ HaltCause.code .unimplementedOpcode = 1 ∧ HaltCause.code .endOfProgram = 2 ∧
  HaltCause.code .unimplementedModrm = 3

/-- 40_fetch_dispatch_engine.md R102: the trace pair of a step, when there is one, and that the trace has no influence: a
run with TRACE_ENABLE the other way differs in that parameter only (decision D12, assumption 17). -/
def Obligations.TraceHasNoInfluence : Prop :=
  (∀ s : State, s.config.traceEnable = true → s.run = .running → s.eip.toNat < s.config.memCapacity →
    traceOut s = some (s.eip, readByte s s.eip.toNat)) ∧
  (∀ s : State, s.config.traceEnable = false ∨ s.config.memCapacity ≤ s.eip.toNat → traceOut s = none) ∧
  (∀ (s : State) (b : Bool) (n : Nat),
    runLoop n { s with config := { s.config with traceEnable := b } } =
      { runLoop n s with config := { (runLoop n s).config with traceEnable := b } })

/-- 43_jmp.md R152, the path of a run: two cores with whatever registers and data, alike in EIP and engine state, stay alike
in both as long as each turn finds the same ten bytes at EIP in both and neither stops fatally. Registers reach the path
only by a store over code that is fetched later (20_memory.md R56), or by one out of bounds. -/
def Obligations.RunsPathDependsOnRegistersOnlyThroughCode : Prop :=
  ∀ (s s' : State) (n : Nat), s.config.valid = true → s'.eip = s.eip → EngineSame s s' →
    (∀ k, k < n → FetchesAlike (runLoop k s) (runLoop k s')) →
    (∀ k, k ≤ n → (runLoop k s).run ≠ .fatal ∧ (runLoop k s').run ≠ .fatal) →
    (runLoop n s').eip = (runLoop n s).eip ∧ EngineSame (runLoop n s) (runLoop n s')

/-- 20_memory.md R41: memory is zero when it is created, the loader overwrites the bytes of the image, and every other byte
is still zero when the run begins. -/
def Obligations.MemoryIsZeroButForTheImage : Prop :=
  ∀ c : Config,
    (∀ a, readByte (State.resetWith c) a = 0x00) ∧
    ∀ (image : List Byte) (s : State), boot c image = .next s →
      (∀ k (h : k < image.length), readByte s (c.loadOffset.toNat + k) = image[k]) ∧
      (∀ a, a < c.loadOffset.toNat ∨ c.loadOffset.toNat + image.length ≤ a → readByte s a = 0x00)

/-- 40_fetch_dispatch_engine.md R91 and R93: the signed fetches read the bytes the unsigned ones read, or stop as they do;
the byte is widened as a two's-complement value, and the word, read as one, adds to a 32-bit value as its pattern does. -/
def Obligations.SignedFetchesReadTheSameBytes : Prop :=
  ∀ (s : State) (k : Nat),
    (∀ b, code8 s k = .ok b → ∃ w, signCode8 s k = .ok w ∧ w = sext8 b ∧ w.toInt = b.toInt) ∧
    (∀ f, code8 s k = .error f → signCode8 s k = .error f) ∧
    (∀ w, code32 s k = .ok w → signCode32 s k = .ok w ∧
      ∀ a : Word, ((a + w).toNat : Int) = (a.toNat + w.toInt) % 2 ^ 32) ∧
    (∀ f, code32 s k = .error f → signCode32 s k = .error f)
end

