-- ==== Sys2Proof/Laws/Decode.lean ====
section
/-! SUPPORT. The laws of the byte order, the register numbers and the ModRM byte (20_memory.md R47, 10_state.md R22,
30_encoding.md R74), and one equation of the decoder per form. -/

namespace Sys2Proof

/-! ## Byte order -/

@[simp] theorem wordOfBytes_byteOfWord (w : Word) :
    wordOfBytes (byteOfWord w 0) (byteOfWord w 1) (byteOfWord w 2) (byteOfWord w 3) = w := by
  apply BitVec.eq_of_getLsbD_eq
  intro i hi
  simp [wordOfBytes, byteOfWord]
  grind

@[simp] theorem byteOfWord_zero (a b c d : Byte) : byteOfWord (wordOfBytes a b c d) 0 = a := by
  apply BitVec.eq_of_getLsbD_eq
  intro i hi
  simp [wordOfBytes, byteOfWord]
  grind

@[simp] theorem byteOfWord_one (a b c d : Byte) : byteOfWord (wordOfBytes a b c d) 1 = b := by
  apply BitVec.eq_of_getLsbD_eq
  intro i hi
  simp [wordOfBytes, byteOfWord]
  grind

@[simp] theorem byteOfWord_two (a b c d : Byte) : byteOfWord (wordOfBytes a b c d) 2 = c := by
  apply BitVec.eq_of_getLsbD_eq
  intro i hi
  simp [wordOfBytes, byteOfWord]
  grind

@[simp] theorem byteOfWord_three (a b c d : Byte) : byteOfWord (wordOfBytes a b c d) 3 = d := by
  apply BitVec.eq_of_getLsbD_eq
  intro i hi
  simp [wordOfBytes, byteOfWord]
  grind

@[simp] theorem bytesOfWord_wordOfBytes (a b c d : Byte) : bytesOfWord (wordOfBytes a b c d) = [a, b, c, d] := by
  simp [bytesOfWord]

@[simp] theorem bytesOfWord_length (w : Word) : (bytesOfWord w).length = 4 := rfl

/-- The value of a word by its bytes (20_memory.md R44). -/
theorem wordOfBytes_toNat (a b c d : Byte) :
    (wordOfBytes a b c d).toNat = a.toNat + 256 * b.toNat + 65536 * c.toNat + 16777216 * d.toNat := by
  have ha := a.isLt; have hb := b.isLt; have hc := c.isLt
  simp only [wordOfBytes, BitVec.toNat_append]
  rw [← Nat.shiftLeft_add_eq_or_of_lt ha, ← Nat.shiftLeft_add_eq_or_of_lt hb, ← Nat.shiftLeft_add_eq_or_of_lt hc]
  simp only [Nat.shiftLeft_eq]
  omega

/-! ## Register numbers and ModRM fields -/

@[simp] theorem Reg.ofNumber_number (r : Reg) : Reg.ofNumber r.number = r := by cases r <;> rfl

@[simp] theorem Reg.number_ofNumber (n : BitVec 3) : (Reg.ofNumber n).number = n := by
  revert n; decide

@[simp] theorem AddrMode.ofBits_bits (m : AddrMode) : AddrMode.ofBits m.bits = m := by cases m <;> rfl

@[simp] theorem modOf_modrmByte (mode : AddrMode) (reg : BitVec 3) (rm : Reg) : modOf (modrmByte mode reg rm) = mode := by
  revert reg; cases mode <;> cases rm <;> decide

@[simp] theorem regOf_modrmByte (mode : AddrMode) (reg : BitVec 3) (rm : Reg) : regOf (modrmByte mode reg rm) = reg := by
  revert reg; cases mode <;> cases rm <;> decide

@[simp] theorem rmOf_modrmByte (mode : AddrMode) (reg : BitVec 3) (rm : Reg) : rmOf (modrmByte mode reg rm) = rm := by
  revert reg; cases mode <;> cases rm <;> decide

@[simp] theorem modrmByte_fields (m : Byte) : modrmByte (modOf m) (regOf m) (rmOf m) = m := by
  revert m; decide

theorem Reg.group_low_iff (r : Reg) : r.group = .low ↔ r.isLowBase = true := by cases r <;> decide

theorem Reg.group_high_iff (r : Reg) : r.group = .high ↔ r.isHighBase = true := by cases r <;> decide

theorem Reg.group_esp_iff (r : Reg) : r.group = .esp ↔ r = .esp := by cases r <;> decide

theorem Reg.group_ebp_iff (r : Reg) : r.group = .ebp ↔ r = .ebp := by cases r <;> decide

/-! ## The fields of the decoder -/

@[simp] theorem takeByte_cons (b : Byte) (rest : List Byte) (k : Byte → List Byte → Decoded) :
    takeByte (b :: rest) k = k b rest := rfl

@[simp] theorem takeWord_bytesOfWord (w : Word) (rest : List Byte) (k : Word → List Byte → Decoded) :
    takeWord (bytesOfWord w ++ rest) k = k w rest := by
  simp [takeWord, bytesOfWord]

/-- What a byte field can answer. -/
theorem takeByte_eq_instr {bs : List Byte} {k : Byte → List Byte → Decoded} {i : Instr} {rest : List Byte}
    (h : takeByte bs k = .instr i rest) : ∃ b bs', bs = b :: bs' ∧ k b bs' = .instr i rest := by
  cases bs with
  | nil => cases h
  | cons b bs' => exact ⟨b, bs', rfl, h⟩

/-- What a word field can answer. -/
theorem takeWord_eq_instr {bs : List Byte} {k : Word → List Byte → Decoded} {i : Instr} {rest : List Byte}
    (h : takeWord bs k = .instr i rest) : ∃ w bs', bs = bytesOfWord w ++ bs' ∧ k w bs' = .instr i rest := by
  match bs, h with
  | b0 :: b1 :: b2 :: b3 :: bs', h =>
    exact ⟨wordOfBytes b0 b1 b2 b3, bs', by simp, h⟩

/-- The opcodes of `MOV r32, imm32` are `0xB8` plus the register number (30_encoding.md R72). -/
theorem dispatchTable_movR32_iff (op : Byte) :
    dispatchTable op = .movR32Imm32 ↔ op = 0xB8 + (opcodeReg op).number.zeroExtend 8 := by
  revert op; decide

theorem dispatchTable_movRm32_iff (op : Byte) : dispatchTable op = .movRm32Imm32 ↔ op = 0xC7 := by
  revert op; decide

theorem dispatchTable_nearJump_iff (op : Byte) : dispatchTable op = .nearJump ↔ op = 0xE9 := by
  revert op; decide

theorem dispatchTable_shortJump_iff (op : Byte) : dispatchTable op = .shortJump ↔ op = 0xEB := by
  revert op; decide

/-- The encoding of the eight short forms is the opcode byte and the immediate (30_encoding.md R72). -/
theorem encode_movR32 (r : Reg) (imm : Word) :
    encode (Instr.movR32 r imm) = (0xB8 + r.number.zeroExtend 8) :: bytesOfWord imm := by
  cases r <;> rfl

/-! ## The unbound answer -/

theorem takeByte_eq_unbound {bs : List Byte} {k : Byte → List Byte → Decoded} {op : Byte}
    (h : takeByte bs k = .unboundOpcode op) : ∃ b bs', bs = b :: bs' ∧ k b bs' = .unboundOpcode op := by
  cases bs with
  | nil => cases h
  | cons b bs' => exact ⟨b, bs', rfl, h⟩

theorem takeWord_eq_unbound {bs : List Byte} {k : Word → List Byte → Decoded} {op : Byte}
    (h : takeWord bs k = .unboundOpcode op) : ∃ w bs', k w bs' = .unboundOpcode op := by
  match bs, h with
  | b0 :: b1 :: b2 :: b3 :: bs', h => exact ⟨wordOfBytes b0 b1 b2 b3, bs', h⟩

theorem decodeMovRm32_ne_unbound (m : Byte) (bs : List Byte) (op : Byte) :
    decodeMovRm32 m bs ≠ .unboundOpcode op := by
  intro h
  unfold decodeMovRm32 decodeMi at h
  have word {f : Word → List Byte → Instr} {bs} (h : takeWord bs (fun w r => .instr (f w r) r) = .unboundOpcode op) :
      False := by
    obtain ⟨_, _, h⟩ := takeWord_eq_unbound h
    cases h
  split at h
  · exact word h
  · exact word h
  · cases h
  · cases h
  · exact word h
  · obtain ⟨_, _, -, h⟩ := takeByte_eq_unbound h
    exact word h
  · cases h
  · obtain ⟨_, _, -, h⟩ := takeByte_eq_unbound h
    exact word h
  · obtain ⟨_, _, -, h⟩ := takeByte_eq_unbound h
    exact word h
  · obtain ⟨_, _, h⟩ := takeWord_eq_unbound h
    exact word h
  · cases h
  · obtain ⟨_, _, h⟩ := takeWord_eq_unbound h
    exact word h
  · obtain ⟨_, _, h⟩ := takeWord_eq_unbound h
    exact word h

/-- An unbound answer names the first byte, whose slot of the dispatch table is empty (30_encoding.md R77). -/
theorem decode_eq_unbound {bs : List Byte} {op : Byte} (h : decode bs = .unboundOpcode op) :
    (∃ rest, bs = op :: rest) ∧ dispatchTable op = .empty := by
  obtain ⟨b, rest, rfl, hk⟩ := takeByte_eq_unbound h
  cases hd : dispatchTable b with
  | empty =>
    rw [hd] at hk
    cases hk
    exact ⟨⟨rest, rfl⟩, hd⟩
  | movR32Imm32 =>
    rw [hd] at hk
    obtain ⟨_, _, h⟩ := takeWord_eq_unbound hk
    cases h
  | nearJump =>
    rw [hd] at hk
    obtain ⟨_, _, h⟩ := takeWord_eq_unbound hk
    cases h
  | shortJump =>
    rw [hd] at hk
    obtain ⟨_, _, -, h⟩ := takeByte_eq_unbound hk
    cases h
  | movRm32Imm32 =>
    rw [hd] at hk
    obtain ⟨m, bs, -, h⟩ := takeByte_eq_unbound hk
    exact absurd h (decodeMovRm32_ne_unbound m bs op)

/-- An empty slot answers at once. -/
theorem decode_of_empty {op : Byte} (rest : List Byte) (h : dispatchTable op = .empty) :
    decode (op :: rest) = .unboundOpcode op := by
  simp only [decode, takeByte_cons, h]

end Sys2Proof
end

