-- ==== Sys2Proof/Laws/State.lean ====
section
/-! SUPPORT. One lemma per field of State per update (10_state.md R20): what each named update leaves in each field. -/

namespace Sys2Proof.Machine

@[simp] theorem writeReg_config (s : State) (r : Reg) (v : Word) : (writeReg s r v).config = s.config := rfl
@[simp] theorem writeReg_regs (s : State) (r : Reg) (v : Word) : (writeReg s r v).regs = s.regs.set r v := rfl
@[simp] theorem writeReg_eip (s : State) (r : Reg) (v : Word) : (writeReg s r v).eip = s.eip := rfl
@[simp] theorem writeReg_eflags (s : State) (r : Reg) (v : Word) : (writeReg s r v).eflags = s.eflags := rfl
@[simp] theorem writeReg_mem (s : State) (r : Reg) (v : Word) : (writeReg s r v).mem = s.mem := rfl
@[simp] theorem writeReg_run (s : State) (r : Reg) (v : Word) : (writeReg s r v).run = s.run := rfl
@[simp] theorem writeReg_haltCause (s : State) (r : Reg) (v : Word) : (writeReg s r v).haltCause = s.haltCause := rfl
@[simp] theorem writeReg_haltOpcode (s : State) (r : Reg) (v : Word) : (writeReg s r v).haltOpcode = s.haltOpcode := rfl
@[simp] theorem writeReg_haltModrm (s : State) (r : Reg) (v : Word) : (writeReg s r v).haltModrm = s.haltModrm := rfl

@[simp] theorem setEip_config (s : State) (v : Word) : (setEip s v).config = s.config := rfl
@[simp] theorem setEip_regs (s : State) (v : Word) : (setEip s v).regs = s.regs := rfl
@[simp] theorem setEip_eip (s : State) (v : Word) : (setEip s v).eip = v := rfl
@[simp] theorem setEip_eflags (s : State) (v : Word) : (setEip s v).eflags = s.eflags := rfl
@[simp] theorem setEip_mem (s : State) (v : Word) : (setEip s v).mem = s.mem := rfl
@[simp] theorem setEip_run (s : State) (v : Word) : (setEip s v).run = s.run := rfl
@[simp] theorem setEip_haltCause (s : State) (v : Word) : (setEip s v).haltCause = s.haltCause := rfl
@[simp] theorem setEip_haltOpcode (s : State) (v : Word) : (setEip s v).haltOpcode = s.haltOpcode := rfl
@[simp] theorem setEip_haltModrm (s : State) (v : Word) : (setEip s v).haltModrm = s.haltModrm := rfl

@[simp] theorem fatalStop_config (s : State) : (fatalStop s).config = s.config := rfl
@[simp] theorem fatalStop_regs (s : State) : (fatalStop s).regs = s.regs := rfl
@[simp] theorem fatalStop_eip (s : State) : (fatalStop s).eip = s.eip := rfl
@[simp] theorem fatalStop_eflags (s : State) : (fatalStop s).eflags = s.eflags := rfl
@[simp] theorem fatalStop_mem (s : State) : (fatalStop s).mem = s.mem := rfl
@[simp] theorem fatalStop_run (s : State) : (fatalStop s).run = .fatal := rfl
@[simp] theorem fatalStop_haltCause (s : State) : (fatalStop s).haltCause = s.haltCause := rfl
@[simp] theorem fatalStop_haltOpcode (s : State) : (fatalStop s).haltOpcode = s.haltOpcode := rfl
@[simp] theorem fatalStop_haltModrm (s : State) : (fatalStop s).haltModrm = s.haltModrm := rfl

@[simp] theorem haltUnimplementedOpcode_config (op : Byte) (s : State) : (haltUnimplementedOpcode op s).config = s.config := rfl
@[simp] theorem haltUnimplementedOpcode_regs (op : Byte) (s : State) : (haltUnimplementedOpcode op s).regs = s.regs := rfl
@[simp] theorem haltUnimplementedOpcode_eip (op : Byte) (s : State) : (haltUnimplementedOpcode op s).eip = s.eip := rfl
@[simp] theorem haltUnimplementedOpcode_eflags (op : Byte) (s : State) : (haltUnimplementedOpcode op s).eflags = s.eflags := rfl
@[simp] theorem haltUnimplementedOpcode_mem (op : Byte) (s : State) : (haltUnimplementedOpcode op s).mem = s.mem := rfl
@[simp] theorem haltUnimplementedOpcode_run (op : Byte) (s : State) : (haltUnimplementedOpcode op s).run = .halted := rfl
@[simp] theorem haltUnimplementedOpcode_haltCause (op : Byte) (s : State) : (haltUnimplementedOpcode op s).haltCause = .unimplementedOpcode := rfl
@[simp] theorem haltUnimplementedOpcode_haltOpcode (op : Byte) (s : State) : (haltUnimplementedOpcode op s).haltOpcode = op := rfl
@[simp] theorem haltUnimplementedOpcode_haltModrm (op : Byte) (s : State) : (haltUnimplementedOpcode op s).haltModrm = s.haltModrm := rfl

@[simp] theorem haltUnimplementedModrm_config (m : Byte) (s : State) : (haltUnimplementedModrm m s).config = s.config := rfl
@[simp] theorem haltUnimplementedModrm_regs (m : Byte) (s : State) : (haltUnimplementedModrm m s).regs = s.regs := rfl
@[simp] theorem haltUnimplementedModrm_eip (m : Byte) (s : State) : (haltUnimplementedModrm m s).eip = s.eip := rfl
@[simp] theorem haltUnimplementedModrm_eflags (m : Byte) (s : State) : (haltUnimplementedModrm m s).eflags = s.eflags := rfl
@[simp] theorem haltUnimplementedModrm_mem (m : Byte) (s : State) : (haltUnimplementedModrm m s).mem = s.mem := rfl
@[simp] theorem haltUnimplementedModrm_run (m : Byte) (s : State) : (haltUnimplementedModrm m s).run = .halted := rfl
@[simp] theorem haltUnimplementedModrm_haltCause (m : Byte) (s : State) : (haltUnimplementedModrm m s).haltCause = .unimplementedModrm := rfl
@[simp] theorem haltUnimplementedModrm_haltOpcode (m : Byte) (s : State) : (haltUnimplementedModrm m s).haltOpcode = 0xC7 := rfl
@[simp] theorem haltUnimplementedModrm_haltModrm (m : Byte) (s : State) : (haltUnimplementedModrm m s).haltModrm = m := rfl

@[simp] theorem haltEndOfProgram_config (s : State) : (halt .endOfProgram .none s).config = s.config := rfl
@[simp] theorem haltEndOfProgram_regs (s : State) : (halt .endOfProgram .none s).regs = s.regs := rfl
@[simp] theorem haltEndOfProgram_eip (s : State) : (halt .endOfProgram .none s).eip = s.eip := rfl
@[simp] theorem haltEndOfProgram_eflags (s : State) : (halt .endOfProgram .none s).eflags = s.eflags := rfl
@[simp] theorem haltEndOfProgram_mem (s : State) : (halt .endOfProgram .none s).mem = s.mem := rfl
@[simp] theorem haltEndOfProgram_run (s : State) : (halt .endOfProgram .none s).run = .halted := rfl
@[simp] theorem haltEndOfProgram_haltCause (s : State) : (halt .endOfProgram .none s).haltCause = .endOfProgram := rfl
@[simp] theorem haltEndOfProgram_haltOpcode (s : State) : (halt .endOfProgram .none s).haltOpcode = s.haltOpcode := rfl
@[simp] theorem haltEndOfProgram_haltModrm (s : State) : (halt .endOfProgram .none s).haltModrm = s.haltModrm := rfl

@[simp] theorem resetWith_config (c : Config) : (State.resetWith c).config = c := rfl
@[simp] theorem resetWith_eip (c : Config) : (State.resetWith c).eip = c.loadOffset := rfl
@[simp] theorem resetWith_eflags (c : Config) : (State.resetWith c).eflags = 0 := rfl
@[simp] theorem resetWith_mem (c : Config) : (State.resetWith c).mem = [] := rfl
@[simp] theorem resetWith_run (c : Config) : (State.resetWith c).run = .running := rfl
@[simp] theorem resetWith_haltCause (c : Config) : (State.resetWith c).haltCause = .none := rfl
@[simp] theorem resetWith_haltOpcode (c : Config) : (State.resetWith c).haltOpcode = 0 := rfl
@[simp] theorem resetWith_haltModrm (c : Config) : (State.resetWith c).haltModrm = 0 := rfl

end Sys2Proof.Machine
end

