-- ==== Sys2Proof/Laws/Memory.lean ====
section
/-! SUPPORT. The laws of memory as a list of cells (20_memory.md R40 to R45): a read after a write, what a write leaves
alone, and that every memory operation keeps the canonical form and the capacity. -/

namespace Sys2Proof.Machine

theorem Memory.read_erase_same (m : Memory) (a : Nat) : Memory.read (Memory.erase m a) a = Memory.unlisted := by
  induction m with
  | nil => rfl
  | cons c rest ih =>
    obtain ⟨k, b⟩ := c
    by_cases h : k = a <;> simp [Memory.erase, Memory.read, h, ih]

theorem Memory.read_erase_other (m : Memory) (a x : Nat) (hx : x ≠ a) :
    Memory.read (Memory.erase m a) x = Memory.read m x := by
  induction m with
  | nil => rfl
  | cons c rest ih =>
    obtain ⟨k, b⟩ := c
    by_cases h : k = a
    · subst h; simp [Memory.erase, Memory.read, ih, Ne.symm hx]
    · simp [Memory.erase, Memory.read, h, ih]

/-- No cell of an erased memory has the erased address. -/
theorem Memory.erase_not_mem (m : Memory) (a : Nat) : ∀ c ∈ Memory.erase m a, c.1 ≠ a := by
  induction m with
  | nil => simp [Memory.erase]
  | cons c rest ih =>
    obtain ⟨k, b⟩ := c
    by_cases h : k = a
    · simpa [Memory.erase, h] using ih
    · simpa [Memory.erase, h] using ih

theorem Memory.erase_subset (m : Memory) (a : Nat) : ∀ c ∈ Memory.erase m a, c ∈ m := by
  induction m with
  | nil => simp [Memory.erase]
  | cons c rest ih =>
    obtain ⟨k, b⟩ := c
    by_cases h : k = a
    · simp only [Memory.erase, h, if_true]
      exact fun c hc => List.mem_cons_of_mem _ (ih c hc)
    · simp only [Memory.erase, h, if_false]
      intro c hc
      rcases List.mem_cons.mp hc with rfl | hc
      · exact List.mem_cons_self ..
      · exact List.mem_cons_of_mem _ (ih c hc)

theorem Memory.read_insert_same (m : Memory) (a : Nat) (v : Byte) (h : ∀ c ∈ m, c.1 ≠ a) :
    Memory.read (Memory.insert m a v) a = v := by
  induction m with
  | nil => simp [Memory.insert, Memory.read]
  | cons c rest ih =>
    obtain ⟨k, b⟩ := c
    have hk : k ≠ a := h (k, b) (List.mem_cons_self ..)
    by_cases hlt : a < k
    · simp [Memory.insert, Memory.read, hlt]
    · simp [Memory.insert, Memory.read, hlt, hk, ih fun c hc => h c (List.mem_cons_of_mem _ hc)]

theorem Memory.read_insert_other (m : Memory) (a x : Nat) (v : Byte) (hx : x ≠ a) :
    Memory.read (Memory.insert m a v) x = Memory.read m x := by
  induction m with
  | nil => simp [Memory.insert, Memory.read, Ne.symm hx]
  | cons c rest ih =>
    obtain ⟨k, b⟩ := c
    by_cases hlt : a < k
    · simp [Memory.insert, Memory.read, hlt, Ne.symm hx]
    · simp [Memory.insert, Memory.read, hlt, ih]

@[simp] theorem Memory.read_write_same (m : Memory) (a : Nat) (v : Byte) : Memory.read (Memory.write m a v) a = v := by
  unfold Memory.write
  split
  · next h => rw [Memory.read_erase_same, h]
  · exact Memory.read_insert_same _ _ _ (Memory.erase_not_mem m a)

theorem Memory.read_write_other (m : Memory) (a x : Nat) (v : Byte) (hx : x ≠ a) :
    Memory.read (Memory.write m a v) x = Memory.read m x := by
  unfold Memory.write
  split
  · exact Memory.read_erase_other _ _ _ hx
  · rw [Memory.read_insert_other _ _ _ _ hx, Memory.read_erase_other _ _ _ hx]

/-- A run of bytes written leaves every address outside the run alone. -/
theorem Memory.read_writeBytes_outside (bs : List Byte) (m : Memory) (a x : Nat)
    (hx : x < a ∨ a + bs.length ≤ x) : Memory.read (Memory.writeBytes m a bs) x = Memory.read m x := by
  induction bs generalizing m a with
  | nil => rfl
  | cons b rest ih =>
    simp only [List.length_cons] at hx
    rw [Memory.writeBytes, ih _ _ (by omega), Memory.read_write_other _ _ _ _ (by omega)]

/-- A run of bytes written is read back, byte for byte. -/
theorem Memory.read_writeBytes_inside (bs : List Byte) (m : Memory) (a k : Nat) (hk : k < bs.length) :
    Memory.read (Memory.writeBytes m a bs) (a + k) = bs[k] := by
  induction bs generalizing m a k with
  | nil => simp at hk
  | cons b rest ih =>
    cases k with
    | zero =>
      rw [Memory.writeBytes, Nat.add_zero, Memory.read_writeBytes_outside _ _ _ _ (by omega)]
      simp
    | succ k =>
      simp only [List.length_cons] at hk
      have := ih (Memory.write m a b) (a + 1) k (by omega)
      rw [Memory.writeBytes, show a + (k + 1) = a + 1 + k by omega, this]
      simp

/-! ## Canonical form -/

theorem Memory.wf_cons (k : Nat) (b : Byte) (rest : Memory) :
    Memory.wf ((k, b) :: rest) = true ↔
      b ≠ Memory.unlisted ∧ (∀ c ∈ rest, k < c.1) ∧ Memory.wf rest = true := by
  simp [Memory.wf, and_assoc]

theorem Memory.erase_wf (m : Memory) (a : Nat) (h : Memory.wf m = true) : Memory.wf (Memory.erase m a) = true := by
  induction m with
  | nil => rfl
  | cons c rest ih =>
    obtain ⟨k, b⟩ := c
    obtain ⟨hb, hk, hr⟩ := (Memory.wf_cons k b rest).mp h
    by_cases ha : k = a
    · simpa [Memory.erase, ha] using ih hr
    · simp only [Memory.erase, ha, if_false]
      exact (Memory.wf_cons _ _ _).mpr ⟨hb, fun c hc => hk c (Memory.erase_subset rest a c hc), ih hr⟩

theorem Memory.mem_insert (m : Memory) (a : Nat) (v : Byte) :
    ∀ c ∈ Memory.insert m a v, c = (a, v) ∨ c ∈ m := by
  induction m with
  | nil => simp [Memory.insert]
  | cons c rest ih =>
    obtain ⟨k, b⟩ := c
    by_cases hlt : a < k
    · simp [Memory.insert, hlt]
    · simp only [Memory.insert, hlt, if_false]
      intro c hc
      rcases List.mem_cons.mp hc with rfl | hc
      · exact .inr (List.mem_cons_self ..)
      · exact (ih c hc).imp_right (List.mem_cons_of_mem _)

theorem Memory.insert_wf (m : Memory) (a : Nat) (v : Byte) (hv : v ≠ Memory.unlisted) (ha : ∀ c ∈ m, c.1 ≠ a)
    (h : Memory.wf m = true) : Memory.wf (Memory.insert m a v) = true := by
  induction m with
  | nil => simp [Memory.insert, Memory.wf, hv]
  | cons c rest ih =>
    obtain ⟨k, b⟩ := c
    obtain ⟨hb, hk, hr⟩ := (Memory.wf_cons k b rest).mp h
    have hka : k ≠ a := ha (k, b) (List.mem_cons_self ..)
    by_cases hlt : a < k
    · simp only [Memory.insert, hlt, if_true]
      refine (Memory.wf_cons _ _ _).mpr ⟨hv, fun c hc => ?_, h⟩
      rcases List.mem_cons.mp hc with rfl | hc
      · exact hlt
      · exact Nat.lt_trans hlt (hk c hc)
    · simp only [Memory.insert, hlt, if_false]
      refine (Memory.wf_cons _ _ _).mpr ⟨hb, fun c hc => ?_, ih (fun c hc => ha c (List.mem_cons_of_mem _ hc)) hr⟩
      rcases Memory.mem_insert rest a v c hc with rfl | hc
      · have : ¬ a < k := hlt
        simp only; omega
      · exact hk c hc

theorem Memory.write_wf (m : Memory) (a : Nat) (v : Byte) (h : Memory.wf m = true) :
    Memory.wf (Memory.write m a v) = true := by
  unfold Memory.write
  split
  · exact Memory.erase_wf m a h
  · next hv => exact Memory.insert_wf _ a v hv (Memory.erase_not_mem m a) (Memory.erase_wf m a h)

theorem Memory.writeBytes_wf (bs : List Byte) (m : Memory) (a : Nat) (h : Memory.wf m = true) :
    Memory.wf (Memory.writeBytes m a bs) = true := by
  induction bs generalizing m a with
  | nil => exact h
  | cons b rest ih => exact ih _ _ (Memory.write_wf m a b h)

/-! ## Capacity -/

theorem Memory.below_iff (m : Memory) (n : Nat) : Memory.below m n = true ↔ ∀ c ∈ m, c.1 < n := by
  simp [Memory.below]

theorem Memory.write_below (m : Memory) (a n : Nat) (v : Byte) (ha : a < n) (h : Memory.below m n = true) :
    Memory.below (Memory.write m a v) n = true := by
  rw [Memory.below_iff] at h ⊢
  unfold Memory.write
  split
  · exact fun c hc => h c (Memory.erase_subset m a c hc)
  · intro c hc
    rcases Memory.mem_insert _ a v c hc with rfl | hc
    · exact ha
    · exact h c (Memory.erase_subset m a c hc)

theorem Memory.writeBytes_below (bs : List Byte) (m : Memory) (a n : Nat) (ha : a + bs.length ≤ n)
    (h : Memory.below m n = true) : Memory.below (Memory.writeBytes m a bs) n = true := by
  induction bs generalizing m a with
  | nil => exact h
  | cons b rest ih =>
    simp only [List.length_cons] at ha
    exact ih _ _ (by omega) (Memory.write_below m a n b (by omega) h)

/-! ## Equal contents in canonical form are equal lists -/

theorem Memory.read_eq_unlisted_of_lt (m : Memory) (x : Nat) (h : ∀ c ∈ m, x < c.1) :
    Memory.read m x = Memory.unlisted := by
  induction m with
  | nil => rfl
  | cons c rest ih =>
    obtain ⟨k, b⟩ := c
    have hk : x < k := h (k, b) (List.mem_cons_self ..)
    rw [Memory.read, if_neg (by omega), ih fun c hc => h c (List.mem_cons_of_mem _ hc)]

/-- Canonical memories that read alike everywhere are the same data. -/
theorem Memory.ext_of_wf (m n : Memory) (hm : Memory.wf m = true) (hn : Memory.wf n = true)
    (h : ∀ a, Memory.read m a = Memory.read n a) : m = n := by
  induction m generalizing n with
  | nil =>
    cases n with
    | nil => rfl
    | cons c rest =>
      obtain ⟨k, b⟩ := c
      have := h k
      simp only [Memory.read, if_true] at this
      exact absurd this.symm ((Memory.wf_cons _ _ _).mp hn).1
  | cons c m' ih =>
    obtain ⟨k, b⟩ := c
    obtain ⟨hb, hk, hm'⟩ := (Memory.wf_cons _ _ _).mp hm
    cases n with
    | nil =>
      have := h k
      simp only [Memory.read, if_true] at this
      exact absurd this hb
    | cons c n' =>
      obtain ⟨j, d⟩ := c
      obtain ⟨hd, hj, hn'⟩ := (Memory.wf_cons _ _ _).mp hn
      have hkj : k = j := by
        rcases Nat.lt_trichotomy k j with hlt | heq | hgt
        · have := h k
          rw [Memory.read, if_pos rfl, Memory.read_eq_unlisted_of_lt] at this
          · exact absurd this hb
          · intro c hc
            rcases List.mem_cons.mp hc with rfl | hc
            · exact hlt
            · exact Nat.lt_trans hlt (hj c hc)
        · exact heq
        · have := h j
          rw [Memory.read_eq_unlisted_of_lt, Memory.read, if_pos rfl] at this
          · exact absurd this.symm hd
          · intro c hc
            rcases List.mem_cons.mp hc with rfl | hc
            · exact hgt
            · exact Nat.lt_trans hgt (hk c hc)
      subst hkj
      have hbd : b = d := by simpa [Memory.read] using h k
      subst hbd
      refine congrArg _ (ih n' hm' hn' fun a => ?_)
      by_cases ha : k = a
      · subst ha
        rw [Memory.read_eq_unlisted_of_lt _ _ hk, Memory.read_eq_unlisted_of_lt _ _ hj]
      · simpa [Memory.read, ha] using h a

end Sys2Proof.Machine
end

