-- ==== Sys2Proof/Laws/Registers.lean ====
section
/-! SUPPORT. The laws of the register file (10_state.md R21, R23). -/

namespace Sys2Proof.Machine

@[simp] theorem RegFile.get_set_same (f : RegFile) (r : Reg) (v : Word) : (f.set r v).get r = v := by
  cases r <;> rfl

theorem RegFile.get_set_other (f : RegFile) (r q : Reg) (v : Word) (h : q ≠ r) : (f.set r v).get q = f.get q := by
  cases r <;> cases q <;> first | rfl | exact absurd rfl h

/-- Two register files with the same eight contents are the same. -/
theorem RegFile.ext_get (f g : RegFile) (h : ∀ r, f.get r = g.get r) : f = g := by
  have h0 := h .eax; have h1 := h .ecx; have h2 := h .edx; have h3 := h .ebx
  have h4 := h .esp; have h5 := h .ebp; have h6 := h .esi; have h7 := h .edi
  cases f; cases g
  simp only [RegFile.get] at h0 h1 h2 h3 h4 h5 h6 h7
  subst h0 h1 h2 h3 h4 h5 h6 h7; rfl

@[simp] theorem readReg_writeReg_same (s : State) (r : Reg) (v : Word) : readReg (writeReg s r v) r = v :=
  RegFile.get_set_same _ _ _

theorem readReg_writeReg_other (s : State) (r q : Reg) (v : Word) (h : q ≠ r) :
    readReg (writeReg s r v) q = readReg s q := RegFile.get_set_other _ _ _ _ h

@[simp] theorem readReg_setEip (s : State) (v : Word) (r : Reg) : readReg (setEip s v) r = readReg s r := rfl

end Sys2Proof.Machine
end

