-- ==== Sys2Proof/Laws/Ops.lean ====
section
/-! SUPPORT. One lemma per shared operation that says all it can answer (20_memory.md R42 to R46, 41_modrm.md R119,
40_fetch_dispatch_engine.md R100). -/

namespace Sys2Proof.Machine

theorem inBounds_iff (s : State) (a : Word) (n : Nat) :
    inBounds s a n = true ↔ a.toNat + n ≤ s.config.memCapacity := by simp [inBounds]

/-! ## Reads -/

theorem memRead8_of_lt {s : State} {a : Word} (h : a.toNat < s.config.memCapacity) :
    memRead8 s a = .ok (readByte s a.toNat) := if_pos ((inBounds_iff s a 1).mpr h)

theorem memRead8_of_ge {s : State} {a : Word} (h : s.config.memCapacity ≤ a.toNat) :
    memRead8 s a = .error (.boundsViolation a.toNat) := by
  rw [memRead8, if_neg (by rw [inBounds_iff]; omega), boundsFault, Nat.max_eq_left h]

theorem memRead8_eq_ok {s : State} {a : Word} {b : Byte} :
    memRead8 s a = .ok b ↔ a.toNat < s.config.memCapacity ∧ b = readByte s a.toNat := by
  by_cases h : a.toNat < s.config.memCapacity
  · simp [memRead8_of_lt h, h, eq_comm]
  · simp [memRead8_of_ge (Nat.le_of_not_lt h), h]

theorem memRead32_of_le {s : State} {a : Word} (h : a.toNat + 4 ≤ s.config.memCapacity) :
    memRead32 s a = .ok (wordOfBytes (readByte s a.toNat) (readByte s (a.toNat + 1)) (readByte s (a.toNat + 2))
      (readByte s (a.toNat + 3))) := if_pos ((inBounds_iff s a 4).mpr h)

theorem memRead32_of_gt {s : State} {a : Word} (h : s.config.memCapacity < a.toNat + 4) :
    memRead32 s a = .error (boundsFault s a) := if_neg (by rw [inBounds_iff]; omega)

/-! ## The store -/

theorem memWrite32_of_le {s : State} {a v : Word} (h : a.toNat + 4 ≤ s.config.memCapacity) :
    memWrite32 s a v = .ok { s with mem := Memory.writeBytes s.mem a.toNat (bytesOfWord v) } :=
  if_pos ((inBounds_iff s a 4).mpr h)

theorem memWrite32_of_gt {s : State} {a v : Word} (h : s.config.memCapacity < a.toNat + 4) :
    memWrite32 s a v = .error (boundsFault s a) := if_neg (by rw [inBounds_iff]; omega)

/-- Everything a store can answer when it succeeds. -/
theorem memWrite32_eq_ok {s t : State} {a v : Word} (h : memWrite32 s a v = .ok t) :
    a.toNat + 4 ≤ s.config.memCapacity ∧
      t = { s with mem := Memory.writeBytes s.mem a.toNat (bytesOfWord v) } := by
  by_cases hb : a.toNat + 4 ≤ s.config.memCapacity
  · rw [memWrite32_of_le hb] at h
    cases h
    exact ⟨hb, rfl⟩
  · rw [memWrite32_of_gt (by omega)] at h
    cases h

/-- The stored word by its bytes. -/
theorem readByte_store_inside (s : State) (a : Nat) (v : Word) (k : Nat) (hk : k < 4) :
    Memory.read (Memory.writeBytes s.mem a (bytesOfWord v)) (a + k) = byteOfWord v k := by
  rw [Memory.read_writeBytes_inside _ _ _ k (by simpa using hk)]
  match k, hk with
  | 0, _ => rfl
  | 1, _ => rfl
  | 2, _ => rfl
  | 3, _ => rfl

/-- A store leaves every byte outside its four alone. -/
theorem readByte_store_outside (s : State) (a : Nat) (v : Word) (x : Nat) (hx : x < a ∨ a + 4 ≤ x) :
    Memory.read (Memory.writeBytes s.mem a (bytesOfWord v)) x = Memory.read s.mem x :=
  Memory.read_writeBytes_outside _ _ _ _ (by simpa using hx)

/-- A register-or-memory write: the register, or the store. -/
theorem writeRm32_eq_ok {d : Descriptor} {v : Word} {s t : State} (h : writeRm32 d v s = .ok t) :
    (∃ r, d = .reg r ∧ t = writeReg s r v) ∨
      (∃ ea, d = .mem ea ∧ ea.toNat + 4 ≤ s.config.memCapacity ∧
        t = { s with mem := Memory.writeBytes s.mem ea.toNat (bytesOfWord v) }) := by
  cases d with
  | reg r => cases h; exact .inl ⟨r, rfl, rfl⟩
  | mem ea => obtain ⟨hb, rfl⟩ := memWrite32_eq_ok h; exact .inr ⟨ea, rfl, hb, rfl⟩

/-! ## The sentinel -/

theorem checkSentinel_of_ne {s : State} (h : s.eip ≠ 0) : checkSentinel s = s := if_neg fun h' => h h'.2

theorem checkSentinel_of_stopped {s : State} (h : s.run ≠ .running) : checkSentinel s = s := if_neg fun h' => h h'.1

theorem checkSentinel_of_zero {s : State} (hr : s.run = .running) (h : s.eip = 0) :
    checkSentinel s = halt .endOfProgram .none s := if_pos ⟨hr, h⟩

/-- The sentinel test either leaves the state alone or halts it at EIP 0. -/
theorem checkSentinel_cases (s : State) :
    checkSentinel s = s ∨ (s.run = .running ∧ s.eip = 0 ∧ checkSentinel s = halt .endOfProgram .none s) := by
  unfold checkSentinel
  split
  · next h => exact .inr ⟨h.1, h.2, rfl⟩
  · exact .inl rfl

@[simp] theorem checkSentinel_config (s : State) : (checkSentinel s).config = s.config := by
  unfold checkSentinel; split <;> rfl

@[simp] theorem checkSentinel_regs (s : State) : (checkSentinel s).regs = s.regs := by
  unfold checkSentinel; split <;> rfl

@[simp] theorem checkSentinel_eip (s : State) : (checkSentinel s).eip = s.eip := by
  unfold checkSentinel; split <;> rfl

@[simp] theorem checkSentinel_eflags (s : State) : (checkSentinel s).eflags = s.eflags := by
  unfold checkSentinel; split <;> rfl

@[simp] theorem checkSentinel_mem (s : State) : (checkSentinel s).mem = s.mem := by
  unfold checkSentinel; split <;> rfl

@[simp] theorem checkSentinel_haltOpcode (s : State) : (checkSentinel s).haltOpcode = s.haltOpcode := by
  unfold checkSentinel; split <;> rfl

@[simp] theorem checkSentinel_haltModrm (s : State) : (checkSentinel s).haltModrm = s.haltModrm := by
  unfold checkSentinel; split <;> rfl

/-! ## Outcomes -/

theorem afterHandler_eq_next {o : Host.Outcome State Fault Refusal} {t : State} (h : afterHandler o = .next t) :
    ∃ u, o = .next u ∧ t = checkSentinel u := by
  cases o with
  | next u => cases h; exact ⟨u, rfl, rfl⟩
  | fault f => cases h
  | refused r => cases h

theorem afterHandler_eq_fault {o : Host.Outcome State Fault Refusal} {f : Fault} (h : afterHandler o = .fault f) :
    o = .fault f := by
  cases o with
  | next u => cases h
  | fault g => cases h; rfl
  | refused r => cases h

end Sys2Proof.Machine
end

