-- ==== Sys2Proof/Laws/Exec.lean ====
section
/-! SUPPORT. What the instructions can do, said once (42_mov.md R130 to R143, 43_jmp.md R150 to R152). -/

namespace Sys2Proof.Machine

/-- A completed `MOV r/m32, imm32` wrote its register or stored its word, and moved EIP past itself. -/
theorem movRm32_eq_next {d : Descriptor} {n : Nat} {imm : Word} {s t : State} (h : movRm32 d n imm s = .next t) :
    (∃ r, d = .reg r ∧ t = setEip (writeReg s r imm) (s.eip + BitVec.ofNat 32 (1 + n + 4))) ∨
      (∃ ea, d = .mem ea ∧ ea.toNat + 4 ≤ s.config.memCapacity ∧
        t = setEip { s with mem := Memory.writeBytes s.mem ea.toNat (bytesOfWord imm) }
          (s.eip + BitVec.ofNat 32 (1 + n + 4))) := by
  unfold movRm32 at h
  cases hw : writeRm32 d imm s with
  | error f => rw [hw] at h; cases h
  | ok u =>
    rw [hw] at h
    cases h
    rcases writeRm32_eq_ok hw with ⟨r, hd, rfl⟩ | ⟨ea, hd, hb, rfl⟩
    · exact .inl ⟨r, hd, rfl⟩
    · exact .inr ⟨ea, hd, hb, rfl⟩

theorem movRm32_reg (r : Reg) (n : Nat) (imm : Word) (s : State) :
    movRm32 (.reg r) n imm s = .next (setEip (writeReg s r imm) (s.eip + BitVec.ofNat 32 (1 + n + 4))) := rfl

theorem movRm32_mem_of_le {ea : Word} {n : Nat} {imm : Word} {s : State} (h : ea.toNat + 4 ≤ s.config.memCapacity) :
    movRm32 (.mem ea) n imm s =
      .next (setEip { s with mem := Memory.writeBytes s.mem ea.toNat (bytesOfWord imm) }
        (s.eip + BitVec.ofNat 32 (1 + n + 4))) := by
  rw [movRm32, writeRm32, memWrite32_of_le h]; rfl

theorem movRm32_mem_of_gt {ea : Word} {n : Nat} {imm : Word} {s : State} (h : s.config.memCapacity < ea.toNat + 4) :
    movRm32 (.mem ea) n imm s = .fault (boundsFault s ea) := by
  rw [movRm32, writeRm32, memWrite32_of_gt h]; rfl

/-- All that an instruction can do to the state when it completes: write one register, store one word, or only move
EIP; or be an unmodeled encoding, which halts the engine. -/
def ExecEffect (s t : State) : Prop :=
  (∃ r v e, t = setEip (writeReg s r v) e) ∨
    (∃ ea v e, ea + 4 ≤ s.config.memCapacity ∧
      t = setEip { s with mem := Memory.writeBytes s.mem ea (bytesOfWord v) } e) ∨
    (∃ e, t = setEip s e) ∨
    (∃ m, (m &&& 0xC7 = 0x04 ∨ m &&& 0xC7 = 0x05 ∨ m &&& 0xC7 = 0x44 ∨ m &&& 0xC7 = 0x84) ∧
      t = haltUnimplementedModrm m s)

theorem movRm32_effect {d : Descriptor} {n : Nat} {imm : Word} {s t : State} (h : movRm32 d n imm s = .next t) :
    ExecEffect s t := by
  rcases movRm32_eq_next h with ⟨r, -, rfl⟩ | ⟨ea, -, hb, rfl⟩
  · exact .inl ⟨r, imm, _, rfl⟩
  · exact .inr (.inl ⟨ea.toNat, imm, _, hb, rfl⟩)

/-- Every completed instruction has one of the effects of `ExecEffect`. -/
theorem exec_eq_next {i : Instr} {s t : State} (h : exec i s = .next t) : ExecEffect s t := by
  cases i with
  | movEax imm => cases h; exact .inl ⟨_, _, _, rfl⟩
  | movEcx imm => cases h; exact .inl ⟨_, _, _, rfl⟩
  | movEdx imm => cases h; exact .inl ⟨_, _, _, rfl⟩
  | movEbx imm => cases h; exact .inl ⟨_, _, _, rfl⟩
  | movEsp imm => cases h; exact .inl ⟨_, _, _, rfl⟩
  | movEbp imm => cases h; exact .inl ⟨_, _, _, rfl⟩
  | movEsi imm => cases h; exact .inl ⟨_, _, _, rfl⟩
  | movEdi imm => cases h; exact .inl ⟨_, _, _, rfl⟩
  | jmpRel8 d => cases h; exact .inr (.inr (.inl ⟨_, rfl⟩))
  | jmpRel32 d => cases h; exact .inr (.inr (.inl ⟨_, rfl⟩))
  | movRmReg _ rm imm => exact movRm32_effect (d := .reg rm) (n := 1) (imm := imm) h
  | movMemLow _ _ _ => exact movRm32_effect h
  | movMemHigh _ _ _ => exact movRm32_effect h
  | movMemDisp8Low _ _ _ _ => exact movRm32_effect h
  | movMemDisp8Ebp _ _ _ => exact movRm32_effect h
  | movMemDisp8High _ _ _ _ => exact movRm32_effect h
  | movMemDisp32Low _ _ _ _ => exact movRm32_effect h
  | movMemDisp32Ebp _ _ _ => exact movRm32_effect h
  | movMemDisp32High _ _ _ _ => exact movRm32_effect h
  | movUnmodeledNoDispSib reg => cases h; exact .inr (.inr (.inr ⟨_, by revert reg; decide, rfl⟩))
  | movUnmodeledNoBase reg => cases h; exact .inr (.inr (.inr ⟨_, by revert reg; decide, rfl⟩))
  | movUnmodeledDisp8Sib reg => cases h; exact .inr (.inr (.inr ⟨_, by revert reg; decide, rfl⟩))
  | movUnmodeledDisp32Sib reg => cases h; exact .inr (.inr (.inr ⟨_, by revert reg; decide, rfl⟩))

/-- The only fault of an instruction is the bounds violation of its store; none is refused. -/
theorem exec_cases (i : Instr) (s : State) :
    (∃ t, exec i s = .next t) ∨
      (∃ ea : Word, s.config.memCapacity < ea.toNat + 4 ∧ exec i s = .fault (boundsFault s ea)) := by
  have mov (d n imm) : (∃ t, movRm32 d n imm s = .next t) ∨
      (∃ ea : Word, s.config.memCapacity < ea.toNat + 4 ∧ movRm32 d n imm s = .fault (boundsFault s ea)) := by
    cases d with
    | reg r => exact .inl ⟨_, movRm32_reg r n imm s⟩
    | mem ea =>
      by_cases hb : ea.toNat + 4 ≤ s.config.memCapacity
      · exact .inl ⟨_, movRm32_mem_of_le hb⟩
      · exact .inr ⟨ea, by omega, movRm32_mem_of_gt (by omega)⟩
  cases i with
  | movEax imm => exact .inl ⟨_, rfl⟩
  | movEcx imm => exact .inl ⟨_, rfl⟩
  | movEdx imm => exact .inl ⟨_, rfl⟩
  | movEbx imm => exact .inl ⟨_, rfl⟩
  | movEsp imm => exact .inl ⟨_, rfl⟩
  | movEbp imm => exact .inl ⟨_, rfl⟩
  | movEsi imm => exact .inl ⟨_, rfl⟩
  | movEdi imm => exact .inl ⟨_, rfl⟩
  | jmpRel8 d => exact .inl ⟨_, rfl⟩
  | jmpRel32 d => exact .inl ⟨_, rfl⟩
  | movRmReg _ rm imm => exact mov (.reg rm) 1 imm
  | movMemLow _ _ _ => exact mov _ _ _
  | movMemHigh _ _ _ => exact mov _ _ _
  | movMemDisp8Low _ _ _ _ => exact mov _ _ _
  | movMemDisp8Ebp _ _ _ => exact mov _ _ _
  | movMemDisp8High _ _ _ _ => exact mov _ _ _
  | movMemDisp32Low _ _ _ _ => exact mov _ _ _
  | movMemDisp32Ebp _ _ _ => exact mov _ _ _
  | movMemDisp32High _ _ _ _ => exact mov _ _ _
  | movUnmodeledNoDispSib reg => exact .inl ⟨_, rfl⟩
  | movUnmodeledNoBase reg => exact .inl ⟨_, rfl⟩
  | movUnmodeledDisp8Sib reg => exact .inl ⟨_, rfl⟩
  | movUnmodeledDisp32Sib reg => exact .inl ⟨_, rfl⟩

end Sys2Proof.Machine
end

