-- ==== Sys2Proof/Laws/PerInstr.lean ====
section
/-! SUPPORT. Statements about every instruction as syntax, one lemma per constructor: the length of its encoding
(30_encoding.md R71) and the row of spec/opcode_table.json its first two bytes select (30_encoding.md R83). -/

namespace Sys2Proof.Laws

/-- Where the instruction has a length, its encoding has that many bytes (30_encoding.md R71). -/
def EncodingLength.Statement (i : Instr) : Prop := ∀ n, i.row.length = some n → (encode i).length = n

/-- The first two bytes of a well-formed instruction's encoding select its row (30_encoding.md R83). -/
def EncodingRow.Statement (i : Instr) : Prop :=
  i.wf = true → ∃ b0 b1 rest, encode i = b0 :: b1 :: rest ∧ i.row.selects b0 b1 = true

theorem EncodingLength.movEax (imm : Word) :
    EncodingLength.Statement (.movEax imm) := by
  intro n h; cases h; rfl

theorem EncodingLength.movEcx (imm : Word) :
    EncodingLength.Statement (.movEcx imm) := by
  intro n h; cases h; rfl

theorem EncodingLength.movEdx (imm : Word) :
    EncodingLength.Statement (.movEdx imm) := by
  intro n h; cases h; rfl

theorem EncodingLength.movEbx (imm : Word) :
    EncodingLength.Statement (.movEbx imm) := by
  intro n h; cases h; rfl

theorem EncodingLength.movEsp (imm : Word) :
    EncodingLength.Statement (.movEsp imm) := by
  intro n h; cases h; rfl

theorem EncodingLength.movEbp (imm : Word) :
    EncodingLength.Statement (.movEbp imm) := by
  intro n h; cases h; rfl

theorem EncodingLength.movEsi (imm : Word) :
    EncodingLength.Statement (.movEsi imm) := by
  intro n h; cases h; rfl

theorem EncodingLength.movEdi (imm : Word) :
    EncodingLength.Statement (.movEdi imm) := by
  intro n h; cases h; rfl

theorem EncodingLength.jmpRel8 (d : Byte) :
    EncodingLength.Statement (.jmpRel8 d) := by
  intro n h; cases h; rfl

theorem EncodingLength.jmpRel32 (d : Word) :
    EncodingLength.Statement (.jmpRel32 d) := by
  intro n h; cases h; rfl

theorem EncodingLength.movRmReg (reg : BitVec 3) (rm : Reg) (imm : Word) :
    EncodingLength.Statement (.movRmReg reg rm imm) := by
  intro n h; cases h; rfl

theorem EncodingLength.movMemLow (reg : BitVec 3) (rm : Reg) (imm : Word) :
    EncodingLength.Statement (.movMemLow reg rm imm) := by
  intro n h; cases h; rfl

theorem EncodingLength.movMemHigh (reg : BitVec 3) (rm : Reg) (imm : Word) :
    EncodingLength.Statement (.movMemHigh reg rm imm) := by
  intro n h; cases h; rfl

theorem EncodingLength.movMemDisp8Low (reg : BitVec 3) (rm : Reg) (d : Byte) (imm : Word) :
    EncodingLength.Statement (.movMemDisp8Low reg rm d imm) := by
  intro n h; cases h; rfl

theorem EncodingLength.movMemDisp8Ebp (reg : BitVec 3) (d : Byte) (imm : Word) :
    EncodingLength.Statement (.movMemDisp8Ebp reg d imm) := by
  intro n h; cases h; rfl

theorem EncodingLength.movMemDisp8High (reg : BitVec 3) (rm : Reg) (d : Byte) (imm : Word) :
    EncodingLength.Statement (.movMemDisp8High reg rm d imm) := by
  intro n h; cases h; rfl

theorem EncodingLength.movMemDisp32Low (reg : BitVec 3) (rm : Reg) (d : Word) (imm : Word) :
    EncodingLength.Statement (.movMemDisp32Low reg rm d imm) := by
  intro n h; cases h; rfl

theorem EncodingLength.movMemDisp32Ebp (reg : BitVec 3) (d : Word) (imm : Word) :
    EncodingLength.Statement (.movMemDisp32Ebp reg d imm) := by
  intro n h; cases h; rfl

theorem EncodingLength.movMemDisp32High (reg : BitVec 3) (rm : Reg) (d : Word) (imm : Word) :
    EncodingLength.Statement (.movMemDisp32High reg rm d imm) := by
  intro n h; cases h; rfl

theorem EncodingLength.movUnmodeledNoDispSib (reg : BitVec 3) :
    EncodingLength.Statement (.movUnmodeledNoDispSib reg) := by
  intro n h; cases h

theorem EncodingLength.movUnmodeledNoBase (reg : BitVec 3) :
    EncodingLength.Statement (.movUnmodeledNoBase reg) := by
  intro n h; cases h

theorem EncodingLength.movUnmodeledDisp8Sib (reg : BitVec 3) :
    EncodingLength.Statement (.movUnmodeledDisp8Sib reg) := by
  intro n h; cases h

theorem EncodingLength.movUnmodeledDisp32Sib (reg : BitVec 3) :
    EncodingLength.Statement (.movUnmodeledDisp32Sib reg) := by
  intro n h; cases h

/-- Byte 0 under a mask that keeps byte 0 only, the form of every row of one byte. -/
theorem EncodingRow.mask_byte0 (b0 b1 : Byte) :
    ((b1 ++ b0 : BitVec 16) &&& 0x00FF) = ((0 : BitVec 8) ++ b0 : BitVec 16) := by
  have h : (0x00FF : BitVec 16) = (0 : BitVec 8) ++ (BitVec.allOnes 8) := by decide
  rw [h, BitVec.and_append, BitVec.and_allOnes]
  simp

/-- A row of one byte is selected by that byte, whatever follows it. -/
theorem EncodingRow.selects_byte0 (b0 b1 : Byte) (len : Option Nat) :
    TableRow.selects ⟨(0 : BitVec 8) ++ b0, 0x00FF, len⟩ b0 b1 = true := by
  rw [TableRow.selects, EncodingRow.mask_byte0, beq_self_eq_true]

theorem EncodingRow.movEax (imm : Word) :
    EncodingRow.Statement (.movEax imm) := fun _ =>
  ⟨_, _, _, rfl, EncodingRow.selects_byte0 0xB8 _ _⟩

theorem EncodingRow.movEcx (imm : Word) :
    EncodingRow.Statement (.movEcx imm) := fun _ =>
  ⟨_, _, _, rfl, EncodingRow.selects_byte0 0xB9 _ _⟩

theorem EncodingRow.movEdx (imm : Word) :
    EncodingRow.Statement (.movEdx imm) := fun _ =>
  ⟨_, _, _, rfl, EncodingRow.selects_byte0 0xBA _ _⟩

theorem EncodingRow.movEbx (imm : Word) :
    EncodingRow.Statement (.movEbx imm) := fun _ =>
  ⟨_, _, _, rfl, EncodingRow.selects_byte0 0xBB _ _⟩

theorem EncodingRow.movEsp (imm : Word) :
    EncodingRow.Statement (.movEsp imm) := fun _ =>
  ⟨_, _, _, rfl, EncodingRow.selects_byte0 0xBC _ _⟩

theorem EncodingRow.movEbp (imm : Word) :
    EncodingRow.Statement (.movEbp imm) := fun _ =>
  ⟨_, _, _, rfl, EncodingRow.selects_byte0 0xBD _ _⟩

theorem EncodingRow.movEsi (imm : Word) :
    EncodingRow.Statement (.movEsi imm) := fun _ =>
  ⟨_, _, _, rfl, EncodingRow.selects_byte0 0xBE _ _⟩

theorem EncodingRow.movEdi (imm : Word) :
    EncodingRow.Statement (.movEdi imm) := fun _ =>
  ⟨_, _, _, rfl, EncodingRow.selects_byte0 0xBF _ _⟩

theorem EncodingRow.jmpRel8 (d : Byte) :
    EncodingRow.Statement (.jmpRel8 d) := fun _ =>
  ⟨_, _, _, rfl, EncodingRow.selects_byte0 0xEB _ _⟩

theorem EncodingRow.jmpRel32 (d : Word) :
    EncodingRow.Statement (.jmpRel32 d) := fun _ =>
  ⟨_, _, _, rfl, EncodingRow.selects_byte0 0xE9 _ _⟩

theorem EncodingRow.movRmReg (reg : BitVec 3) (rm : Reg) (imm : Word) :
    EncodingRow.Statement (.movRmReg reg rm imm) := by
  intro h
  clear h
  refine ⟨_, _, _, rfl, ?_⟩
  simp only [Instr.row]
  revert reg
  cases rm <;> decide

theorem EncodingRow.movMemLow (reg : BitVec 3) (rm : Reg) (imm : Word) :
    EncodingRow.Statement (.movMemLow reg rm imm) := by
  intro h
  refine ⟨_, _, _, rfl, ?_⟩
  simp only [Instr.row, Instr.wf] at h ⊢
  cases rm <;> first | exact absurd h (by decide) | (clear h; revert reg; decide)

theorem EncodingRow.movMemHigh (reg : BitVec 3) (rm : Reg) (imm : Word) :
    EncodingRow.Statement (.movMemHigh reg rm imm) := by
  intro h
  refine ⟨_, _, _, rfl, ?_⟩
  simp only [Instr.row, Instr.wf] at h ⊢
  cases rm <;> first | exact absurd h (by decide) | (clear h; revert reg; decide)

theorem EncodingRow.movMemDisp8Low (reg : BitVec 3) (rm : Reg) (d : Byte) (imm : Word) :
    EncodingRow.Statement (.movMemDisp8Low reg rm d imm) := by
  intro h
  refine ⟨_, _, _, rfl, ?_⟩
  simp only [Instr.row, Instr.wf] at h ⊢
  cases rm <;> first | exact absurd h (by decide) | (clear h; revert reg; decide)

theorem EncodingRow.movMemDisp8Ebp (reg : BitVec 3) (d : Byte) (imm : Word) :
    EncodingRow.Statement (.movMemDisp8Ebp reg d imm) := by
  intro h
  clear h
  refine ⟨_, _, _, rfl, ?_⟩
  simp only [Instr.row]
  revert reg
  decide

theorem EncodingRow.movMemDisp8High (reg : BitVec 3) (rm : Reg) (d : Byte) (imm : Word) :
    EncodingRow.Statement (.movMemDisp8High reg rm d imm) := by
  intro h
  refine ⟨_, _, _, rfl, ?_⟩
  simp only [Instr.row, Instr.wf] at h ⊢
  cases rm <;> first | exact absurd h (by decide) | (clear h; revert reg; decide)

theorem EncodingRow.movMemDisp32Low (reg : BitVec 3) (rm : Reg) (d : Word) (imm : Word) :
    EncodingRow.Statement (.movMemDisp32Low reg rm d imm) := by
  intro h
  refine ⟨_, _, _, rfl, ?_⟩
  simp only [Instr.row, Instr.wf] at h ⊢
  cases rm <;> first | exact absurd h (by decide) | (clear h; revert reg; decide)

theorem EncodingRow.movMemDisp32Ebp (reg : BitVec 3) (d : Word) (imm : Word) :
    EncodingRow.Statement (.movMemDisp32Ebp reg d imm) := by
  intro h
  clear h
  refine ⟨_, _, _, rfl, ?_⟩
  simp only [Instr.row]
  revert reg
  decide

theorem EncodingRow.movMemDisp32High (reg : BitVec 3) (rm : Reg) (d : Word) (imm : Word) :
    EncodingRow.Statement (.movMemDisp32High reg rm d imm) := by
  intro h
  refine ⟨_, _, _, rfl, ?_⟩
  simp only [Instr.row, Instr.wf] at h ⊢
  cases rm <;> first | exact absurd h (by decide) | (clear h; revert reg; decide)

theorem EncodingRow.movUnmodeledNoDispSib (reg : BitVec 3) :
    EncodingRow.Statement (.movUnmodeledNoDispSib reg) := by
  intro h
  clear h
  refine ⟨_, _, _, rfl, ?_⟩
  simp only [Instr.row]
  revert reg
  decide

theorem EncodingRow.movUnmodeledNoBase (reg : BitVec 3) :
    EncodingRow.Statement (.movUnmodeledNoBase reg) := by
  intro h
  clear h
  refine ⟨_, _, _, rfl, ?_⟩
  simp only [Instr.row]
  revert reg
  decide

theorem EncodingRow.movUnmodeledDisp8Sib (reg : BitVec 3) :
    EncodingRow.Statement (.movUnmodeledDisp8Sib reg) := by
  intro h
  clear h
  refine ⟨_, _, _, rfl, ?_⟩
  simp only [Instr.row]
  revert reg
  decide

theorem EncodingRow.movUnmodeledDisp32Sib (reg : BitVec 3) :
    EncodingRow.Statement (.movUnmodeledDisp32Sib reg) := by
  intro h
  clear h
  refine ⟨_, _, _, rfl, ?_⟩
  simp only [Instr.row]
  revert reg
  decide

end Sys2Proof.Laws
end

