-- ==== Sys2Proof/Laws/Step.lean ====
section
/-! SUPPORT. What a step can do, said once, and the bytes it fetches (40_fetch_dispatch_engine.md R99). -/

namespace Sys2Proof.Machine

/-! ## The fetch window -/

theorem fetchBytes_of_ge {s : State} {a : Word} (n : Nat) (h : s.config.memCapacity ≤ a.toNat) :
    fetchBytes s n a = [] := by
  cases n with
  | zero => rfl
  | succ n => rw [fetchBytes, memRead8_of_ge h]

theorem fetchBytes_succ_of_lt {s : State} {a : Word} (n : Nat) (h : a.toNat < s.config.memCapacity) :
    fetchBytes s (n + 1) a = readByte s a.toNat :: fetchBytes s n (a + 1) := by
  rw [fetchBytes, memRead8_of_lt h]

/-- Under the capacity bound of 00_scope.md R6 the window is the bytes from EIP on, as far as memory goes. -/
theorem fetchBytes_eq_map (s : State) (n : Nat) (a : Word) (hc : s.config.memCapacity < 2 ^ 32) :
    fetchBytes s n a =
      (List.range (min n (s.config.memCapacity - a.toNat))).map fun k => readByte s (a.toNat + k) := by
  induction n generalizing a with
  | zero => simp [fetchBytes]
  | succ n ih =>
    by_cases h : a.toNat < s.config.memCapacity
    · have ha : (a + 1).toNat = a.toNat + 1 := by
        rw [BitVec.toNat_add, show (1 : Word).toNat = 1 from rfl, Nat.mod_eq_of_lt (by omega)]
      have hm : min (n + 1) (s.config.memCapacity - a.toNat) =
          min n (s.config.memCapacity - (a + 1).toNat) + 1 := by omega
      rw [fetchBytes_succ_of_lt n h, ih, hm, List.range_succ_eq_map, List.map_cons, List.map_map, ha]
      simp only [Nat.add_zero, List.cons.injEq, true_and]
      apply List.map_congr_left
      intro k _
      simp only [Function.comp_apply, Nat.succ_eq_add_one]
      congr 1; omega
    · rw [fetchBytes_of_ge _ (by omega), show s.config.memCapacity - a.toNat = 0 by omega]
      simp

theorem fetchWindow_of_ge {s : State} (h : s.config.memCapacity ≤ s.eip.toNat) : fetchWindow s = [] :=
  fetchBytes_of_ge _ h

theorem fetchWindow_head {s : State} (h : s.eip.toNat < s.config.memCapacity) :
    fetchWindow s = readByte s s.eip.toNat :: fetchBytes s 9 (s.eip + 1) := fetchBytes_succ_of_lt 9 h

/-! ## The step -/

theorem step_running {s : State} (h : s.run = .running) : step s = runDecoded (decode (fetchWindow s)) s := by
  simp only [step, engineStep, h]

theorem step_stopped {s : State} (h : s.run ≠ .running) : step s = .fault .engineStopped := by
  unfold step engineStep
  cases hr : s.run with
  | running => exact absurd hr h
  | halted => rfl
  | fatal => rfl

/-- A step that answers a next state found an unbound opcode, or ran an instruction to its end and tested the
sentinel. -/
theorem step_eq_next {s t : State} (h : step s = .next t) :
    s.run = .running ∧
      ((∃ op, decode (fetchWindow s) = .unboundOpcode op ∧ t = haltUnimplementedOpcode op s) ∨
        (∃ i rest u, decode (fetchWindow s) = .instr i rest ∧ exec i s = .next u ∧ t = checkSentinel u)) := by
  by_cases hr : s.run = .running
  · refine ⟨hr, ?_⟩
    rw [step_running hr] at h
    cases hd : decode (fetchWindow s) with
    | unboundOpcode op => rw [hd] at h; cases h; exact .inl ⟨op, rfl, rfl⟩
    | truncated => rw [hd] at h; cases h
    | instr i rest =>
      rw [hd] at h
      obtain ⟨u, hu, rfl⟩ := afterHandler_eq_next h
      exact .inr ⟨i, rest, u, rfl, hu, rfl⟩
  · rw [step_stopped hr] at h
    cases h

end Sys2Proof.Machine
end

