-- ==== Sys2Proof/Tests/Slice0.lean ====
section
/-! SUPPORT. Tests: the well-formedness smoke test, decoding by words written out from spec/opcode_table.json, single
steps from the vectors of 95_test_vectors.md, and a witness for the hypotheses of every statement. -/

namespace Sys2Proof.Tests

open Sys2Proof.Machine

/-! ## Builders -/

/-- The state an outcome carries. -/
def nextOf (o : Host.Outcome State Fault Refusal) : Option State :=
  match o with
  | .next t => some t
  | .fault _ | .refused _ => none

/-- The fault an outcome carries. -/
def faultOf (o : Host.Outcome State Fault Refusal) : Option Fault :=
  match o with
  | .fault f => some f
  | .next _ | .refused _ => none

/-- The vectors' start: reset with the bytes placed at EIP, which may be moved, and one register preset. -/
def startAt (eip : Word) (bs : List Byte) : State :=
  { State.reset with eip := eip, mem := Memory.writeBytes [] eip.toNat bs }

def start (bs : List Byte) : State := startAt 0x7C00 bs

/-- A core of 16 bytes of memory, the least R6 allows, under the flat convention. -/
def tiny : Config := { Config.flat with memCapacity := 16 }

/-- The core of 16 bytes, its memory the given bytes from address 0, about to execute at `eip`. -/
def tinyAt (eip : Word) (bs : List Byte) : State :=
  { State.resetWith tiny with eip := eip, mem := Memory.writeBytes [] 0 bs }

/-- One register and EIP after a step. -/
def regAfter (s : State) (r : Reg) : Option (Word × Word) := (nextOf (step s)).map fun t => (readReg t r, t.eip)

/-- Four bytes of memory from `a` on, and EIP, after a step. -/
def memAfter (s : State) (a : Nat) : Option (List Byte × Word) :=
  (nextOf (step s)).map fun t => ([readByte t a, readByte t (a + 1), readByte t (a + 2), readByte t (a + 3)], t.eip)

/-- The engine state, the halt values and EIP. -/
structure Status where
  run : RunState
  cause : HaltCause
  opcode : Byte
  modrm : Byte
  eip : Word
  deriving DecidableEq, Repr

/-- The engine state, the halt values and EIP after a step. -/
def haltAfter (s : State) : Option Status :=
  (nextOf (step s)).map fun t => ⟨t.run, t.haltCause, t.haltOpcode, t.haltModrm, t.eip⟩

/-! ## Well-formedness: an ill-formed term for each check -/

theorem test_wf_memLow : Instr.wf (.movMemLow 0 .esi 0) = false := by decide
theorem test_wf_memHigh : Instr.wf (.movMemHigh 0 .ebx 0) = false := by decide
theorem test_wf_disp8Low : Instr.wf (.movMemDisp8Low 0 .ebp 0 0) = false := by decide
theorem test_wf_disp8High : Instr.wf (.movMemDisp8High 0 .esp 0 0) = false := by decide
theorem test_wf_disp32Low : Instr.wf (.movMemDisp32Low 0 .esp 0 0) = false := by decide
theorem test_wf_disp32High : Instr.wf (.movMemDisp32High 0 .eax 0 0) = false := by decide

/-! ## Decoding: the words of spec/opcode_table.json, bit by bit -/

theorem test_decode_movR32 :
    decode [0b10111000, 0x0D, 0x0C, 0x0B, 0x0A] = .instr (.movEax 0x0A0B0C0D) [] ∧
    decode [0b10111001, 0x0D, 0x0C, 0x0B, 0x0A] = .instr (.movEcx 0x0A0B0C0D) [] ∧
    decode [0b10111010, 0x0D, 0x0C, 0x0B, 0x0A] = .instr (.movEdx 0x0A0B0C0D) [] ∧
    decode [0b10111011, 0x0D, 0x0C, 0x0B, 0x0A] = .instr (.movEbx 0x0A0B0C0D) [] ∧
    decode [0b10111100, 0x0D, 0x0C, 0x0B, 0x0A] = .instr (.movEsp 0x0A0B0C0D) [] ∧
    decode [0b10111101, 0x0D, 0x0C, 0x0B, 0x0A] = .instr (.movEbp 0x0A0B0C0D) [] ∧
    decode [0b10111110, 0x0D, 0x0C, 0x0B, 0x0A] = .instr (.movEsi 0x0A0B0C0D) [] ∧
    decode [0b10111111, 0x0D, 0x0C, 0x0B, 0x0A] = .instr (.movEdi 0x0A0B0C0D) [] := by decide

theorem test_decode_jmp :
    decode [0b11101011, 0x80] = .instr (.jmpRel8 0x80) [] ∧
    decode [0b11101001, 0xE4, 0x83, 0xFF, 0xFF] = .instr (.jmpRel32 0xFFFF83E4) [] := by decide

/-- ModRM `0xCB`, mod `11` reg `001` rm `011`: the register is rm's (V24). -/
theorem test_decode_movRmReg :
    decode [0b11000111, 0b11001011, 0x78, 0x56, 0x34, 0x12] = .instr (.movRmReg 0b001 .ebx 0x12345678) [] := by decide

theorem test_decode_movMem :
    decode [0b11000111, 0b00101011, 0x11, 0x22, 0x33, 0x44] = .instr (.movMemLow 0b101 .ebx 0x44332211) [] ∧
    decode [0b11000111, 0b00111110, 0x11, 0x22, 0x33, 0x44] = .instr (.movMemHigh 0b111 .esi 0x44332211) [] ∧
    decode [0b11000111, 0b01010001, 0x01, 0x44, 0x33, 0x22, 0x11] =
      .instr (.movMemDisp8Low 0b010 .ecx 0x01 0x11223344) [] ∧
    decode [0b11000111, 0b01000101, 0x80, 0x44, 0x33, 0x22, 0x11] =
      .instr (.movMemDisp8Ebp 0 0x80 0x11223344) [] ∧
    decode [0b11000111, 0b01011111, 0x05, 0xEF, 0xBE, 0xAD, 0xDE] =
      .instr (.movMemDisp8High 0b011 .edi 0x05 0xDEADBEEF) [] := by decide

theorem test_decode_movMemDisp32 :
    decode [0b11000111, 0b10100011, 0x00, 0x00, 0xFF, 0xFF, 0x78, 0x56, 0x34, 0x12] =
      .instr (.movMemDisp32Low 0b100 .ebx 0xFFFF0000 0x12345678) [] ∧
    decode [0b11000111, 0b10000101, 0xFC, 0xFF, 0xFF, 0xFF, 0x01, 0x00, 0x00, 0x00] =
      .instr (.movMemDisp32Ebp 0 0xFFFFFFFC 1) [] ∧
    decode [0b11000111, 0b10000110, 0x00, 0x10, 0x00, 0x00, 0x44, 0x33, 0x22, 0x11] =
      .instr (.movMemDisp32High 0 .esi 0x1000 0x11223344) [] := by decide

theorem test_decode_unmodeled :
    decode [0b11000111, 0b00111100] = .instr (.movUnmodeledNoDispSib 0b111) [] ∧
    decode [0b11000111, 0b00001101] = .instr (.movUnmodeledNoBase 0b001) [] ∧
    decode [0b11000111, 0b01000100, 0x24] = .instr (.movUnmodeledDisp8Sib 0) [0x24] ∧
    decode [0b11000111, 0b10000100, 0x24] = .instr (.movUnmodeledDisp32Sib 0) [0x24] := by decide

/-- V100 to V109: the neighbours of the bound bytes are unbound. -/
theorem test_decode_unbound :
    decode [0x00] = .unboundOpcode 0x00 ∧ decode [0x66, 0xB8] = .unboundOpcode 0x66 ∧
    decode [0xB7, 0x01] = .unboundOpcode 0xB7 ∧ decode [0xC0] = .unboundOpcode 0xC0 ∧
    decode [0xC6, 0x00] = .unboundOpcode 0xC6 ∧ decode [0xE8] = .unboundOpcode 0xE8 ∧
    decode [0xEA] = .unboundOpcode 0xEA ∧ decode [0xEC] = .unboundOpcode 0xEC := by decide

/-- The host's numbering: bit 0 is the least significant bit of byte 0, and bytes past `nbits` are 0. -/
theorem test_decodeTableWord :
    decodeTableWord 40 0x0A0B0C0DB8 = some (.movEax 0x0A0B0C0D) ∧
    decodeTableWord 16 0xFEEB = some (.jmpRel8 0xFE) ∧
    decodeTableWord 16 0x3CC7 = some (.movUnmodeledNoDispSib 7) ∧
    decodeTableWord 80 0x1122334400001000_86C7 = some (.movMemDisp32High 0 .esi 0x1000 0x11223344) ∧
    decodeTableWord 8 0x00F4 = none := by decide

/-! ## Single steps (95_test_vectors.md) -/

/-- V1, and V10: no bit of the old value survives. -/
theorem test_movEax :
    regAfter (start [0xB8, 0x0D, 0x0C, 0x0B, 0x0A]) .eax = some (0x0A0B0C0D, 0x7C05) ∧
    regAfter (writeReg (start [0xB8, 0, 0, 0, 0]) .eax 0xDEADBEEF) .eax = some (0, 0x7C05) := by decide

/-- V2, V3 and V4. -/
theorem test_movEcx_movEdx_movEbx :
    regAfter (start [0xB9, 0x0D, 0x0C, 0x0B, 0x0A]) .ecx = some (0x0A0B0C0D, 0x7C05) ∧
    regAfter (start [0xBA, 0x0D, 0x0C, 0x0B, 0x0A]) .edx = some (0x0A0B0C0D, 0x7C05) ∧
    regAfter (start [0xBB, 0x0D, 0x0C, 0x0B, 0x0A]) .ebx = some (0x0A0B0C0D, 0x7C05) := by decide

/-- V5, V6, V7 and V8. -/
theorem test_movEsp_movEbp_movEsi_movEdi :
    regAfter (start [0xBC, 0x0D, 0x0C, 0x0B, 0x0A]) .esp = some (0x0A0B0C0D, 0x7C05) ∧
    regAfter (start [0xBD, 0x0D, 0x0C, 0x0B, 0x0A]) .ebp = some (0x0A0B0C0D, 0x7C05) ∧
    regAfter (start [0xBE, 0x0D, 0x0C, 0x0B, 0x0A]) .esi = some (0x0A0B0C0D, 0x7C05) ∧
    regAfter (start [0xBF, 0x0D, 0x0C, 0x0B, 0x0A]) .edi = some (0x0A0B0C0D, 0x7C05) := by decide

/-- V11 and V12: an instruction may end at the last byte of memory, and one byte more is fatal. -/
theorem test_mov_at_end_of_memory :
    regAfter (startAt 0xFFFFB [0xB8, 0x01, 0x02, 0x03, 0x04]) .eax = some (0x04030201, 0x00100000) ∧
    faultOf (step (startAt 0xFFFFC [0xB8])) = some (.boundsViolation 0x00100000) := by decide

/-- V21 and V24: rm `100` is ESP under mod `11`, and the destination is rm, not reg. -/
theorem test_movRmReg :
    regAfter (start [0xC7, 0xC4, 0xEF, 0xBE, 0xAD, 0xDE]) .esp = some (0xDEADBEEF, 0x7C06) ∧
    regAfter (start [0xC7, 0xCB, 0x78, 0x56, 0x34, 0x12]) .ebx = some (0x12345678, 0x7C06) ∧
    regAfter (start [0xC7, 0xCB, 0x78, 0x56, 0x34, 0x12]) .ecx = some (0, 0x7C06) := by decide

/-- V31: a store needs no alignment; V80: a store past the end is fatal. -/
theorem test_movMemLow :
    memAfter (writeReg (start [0xC7, 0x00, 0x11, 0x22, 0x33, 0x44]) .eax 0x8001) 0x8001 =
      some ([0x11, 0x22, 0x33, 0x44], 0x7C06) ∧
    faultOf (step (writeReg (start [0xC7, 0x00, 0x11, 0x22, 0x33, 0x44]) .eax 0xFFFFD)) =
      some (.boundsViolation 0x00100000) := by decide

/-- V33 and V34. -/
theorem test_movMemHigh :
    memAfter (writeReg (start [0xC7, 0x06, 0x11, 0x22, 0x33, 0x44]) .esi 0xA000) 0xA000 =
      some ([0x11, 0x22, 0x33, 0x44], 0x7C06) ∧
    memAfter (writeReg (start [0xC7, 0x07, 0x11, 0x22, 0x33, 0x44]) .edi 0xA000) 0xA000 =
      some ([0x11, 0x22, 0x33, 0x44], 0x7C06) := by decide

/-- V45: the address wraps; V46: a negative address does not wrap into memory. -/
theorem test_movMemDisp8Low :
    memAfter (writeReg (start [0xC7, 0x41, 0x01, 0x44, 0x33, 0x22, 0x11]) .ecx 0xFFFFFFFF) 0 =
      some ([0x44, 0x33, 0x22, 0x11], 0x7C07) ∧
    faultOf (step (start [0xC7, 0x40, 0xFF, 0x11, 0x22, 0x33, 0x44])) = some (.boundsViolation 0xFFFFFFFF) := by
  decide

/-- V42 and V43: the extreme displacements. -/
theorem test_movMemDisp8Ebp :
    memAfter (writeReg (start [0xC7, 0x45, 0x7F, 0x44, 0x33, 0x22, 0x11]) .ebp 0x9000) 0x907F =
      some ([0x44, 0x33, 0x22, 0x11], 0x7C07) ∧
    memAfter (writeReg (start [0xC7, 0x45, 0x80, 0x44, 0x33, 0x22, 0x11]) .ebp 0x9000) 0x8F80 =
      some ([0x44, 0x33, 0x22, 0x11], 0x7C07) := by decide

/-- The fourth step of program P5. -/
theorem test_movMemDisp8High :
    memAfter (writeReg (start [0xC7, 0x47, 0x05, 0xEF, 0xBE, 0xAD, 0xDE]) .edi 0xFFFFFFFF) 4 =
      some ([0xEF, 0xBE, 0xAD, 0xDE], 0x7C07) := by decide

/-- V47: a store over the instruction's own immediate stores the value read before it. -/
theorem test_store_over_itself :
    memAfter (writeReg (start [0xC7, 0x43, 0x03, 0x44, 0x33, 0x22, 0x11]) .ebx 0x7C01) 0x7C04 =
      some ([0x44, 0x33, 0x22, 0x11], 0x7C07) := by decide

/-- V49 and V49c. -/
theorem test_movMemDisp32Low :
    memAfter (writeReg (start [0xC7, 0x83, 0x00, 0x00, 0xFF, 0xFF, 0x78, 0x56, 0x34, 0x12]) .ebx 0x10000) 0 =
      some ([0x78, 0x56, 0x34, 0x12], 0x7C0A) ∧
    memAfter (writeReg (start [0xC7, 0x80, 0xFF, 0xFF, 0xFF, 0xFF, 0x11, 0x22, 0x33, 0x44]) .eax 0xA001) 0xA000 =
      some ([0x11, 0x22, 0x33, 0x44], 0x7C0A) := by decide

/-- V49a. -/
theorem test_movMemDisp32Ebp :
    memAfter (writeReg (start [0xC7, 0x85, 0xFC, 0xFF, 0xFF, 0xFF, 0x01, 0, 0, 0]) .ebp 0x9000) 0x8FFC =
      some ([0x01, 0, 0, 0], 0x7C0A) := by decide

/-- V48 and V49b. -/
theorem test_movMemDisp32High :
    memAfter (writeReg (start [0xC7, 0x86, 0x00, 0x10, 0, 0, 0x44, 0x33, 0x22, 0x11]) .esi 0x100) 0x1100 =
      some ([0x44, 0x33, 0x22, 0x11], 0x7C0A) ∧
    memAfter (writeReg (start [0xC7, 0x87, 0x04, 0, 0, 0, 0x11, 0x22, 0x33, 0x44]) .edi 0xA000) 0xA004 =
      some ([0x11, 0x22, 0x33, 0x44], 0x7C0A) := by decide

/-- V74, V75, V72 and V73. -/
theorem test_movUnmodeled :
    haltAfter (start [0xC7, 0x3C]) = some ⟨.halted, .unimplementedModrm, 0xC7, 0x3C, 0x7C00⟩ ∧
    haltAfter (start [0xC7, 0x0D]) = some ⟨.halted, .unimplementedModrm, 0xC7, 0x0D, 0x7C00⟩ ∧
    haltAfter (start [0xC7, 0x44, 0x24]) = some ⟨.halted, .unimplementedModrm, 0xC7, 0x44, 0x7C00⟩ ∧
    haltAfter (start [0xC7, 0x84, 0x24]) = some ⟨.halted, .unimplementedModrm, 0xC7, 0x84, 0x7C00⟩ := by decide

/-- V76 and V124: the halt comes before any further fetch, and before the sentinel. -/
theorem test_movUnmodeled_priority :
    haltAfter (startAt 0xFFFFE [0xC7, 0x04]) = some ⟨.halted, .unimplementedModrm, 0xC7, 0x04, 0xFFFFE⟩ ∧
    haltAfter (startAt 0 [0xC7, 0x04]) = some ⟨.halted, .unimplementedModrm, 0xC7, 0x04, 0⟩ := by decide

/-- V53, and S8 (Scenario B): the jump that ends the program. -/
theorem test_jmpRel8 :
    haltAfter (start [0xEB, 0x80]) = some ⟨.running, .none, 0, 0, 0x7B82⟩ ∧
    haltAfter (startAt 0 [0xEB, 0xFE]) = some ⟨.halted, .endOfProgram, 0, 0, 0⟩ := by decide

/-- V68b and V69. -/
theorem test_jmpRel32 :
    haltAfter (startAt 0 [0xE9, 0xFA, 0xFF, 0xFF, 0xFF]) = some ⟨.running, .none, 0, 0, 0xFFFFFFFF⟩ ∧
    faultOf (step (startAt 0xFFFFC [0xE9, 0, 0, 0])) = some (.boundsViolation 0x00100000) := by decide

/-- S9 (Scenario C), V100 and V109a. -/
theorem test_unbound :
    haltAfter (start [0xFF]) = some ⟨.halted, .unimplementedOpcode, 0xFF, 0, 0x7C00⟩ ∧
    haltAfter State.reset = some ⟨.halted, .unimplementedOpcode, 0x00, 0, 0x7C00⟩ ∧
    haltAfter (startAt 0 [0xF4]) = some ⟨.halted, .unimplementedOpcode, 0xF4, 0, 0⟩ := by decide

/-- V81, V83, V84, V85 and V25: where fetches go out of bounds. -/
theorem test_fetch_faults :
    faultOf (step (startAt 0x100000 [])) = some (.boundsViolation 0x00100000) ∧
    faultOf (step (startAt 0xFFFFFF92 [])) = some (.boundsViolation 0xFFFFFF92) ∧
    faultOf (step (startAt 0xFFFFF [0xC7])) = some (.boundsViolation 0x00100000) ∧
    faultOf (step (startAt 0xFFFFD [0xC7, 0x40, 0x00])) = some (.boundsViolation 0x00100000) ∧
    faultOf (step (startAt 0xFFFFE [0xC7, 0xC0])) = some (.boundsViolation 0x00100000) := by decide

/-- V88 and V89: the bound follows the parameter. -/
theorem test_capacity_parameter :
    faultOf (step { writeReg (start [0xC7, 0x00, 0x01, 0, 0, 0]) .eax 0x7FFD with
      config := { Config.default with memCapacity := 0x8000 } }) = some (.boundsViolation 0x8000) ∧
    memAfter { writeReg (start [0xC7, 0x00, 0x01, 0, 0, 0]) .eax 0x7FFC with
      config := { Config.default with memCapacity := 0x8000 } } 0x7FFC = some ([0x01, 0, 0, 0], 0x7C06) := by decide

/-- V140 and V141. -/
theorem test_reset :
    (readReg State.reset .esp, State.reset.eip, State.reset.eflags) = (0x7C00, 0x7C00, 0) ∧
    (readReg (State.resetWith Config.flat) .esp, (State.resetWith Config.flat).eip) = (0, 0) ∧
    Memory.wf State.reset.mem = true := by decide

/-- V112, scaled to 16 bytes of memory: an image that fills memory loads, one byte more does not. -/
theorem test_load :
    (nextOf (boot tiny (List.replicate 16 0xF4))).map (fun s => readByte s 15) = some 0xF4 ∧
    faultOf (boot tiny (List.replicate 17 0xF4)) = some .imageTooLarge := by decide

/-- V131 and the second step of V132. -/
theorem test_trace :
    traceOut { start [0xFF] with config := { Config.default with traceEnable := true } } = some (0x7C00, 0xFF) ∧
    traceOut { startAt 0x100000 [] with config := { Config.default with traceEnable := true } } = none ∧
    traceOut (start [0xFF]) = none := by decide

/-- A table word runs as the first instruction after reset. -/
theorem test_withFetchWord :
    regAfter (State.reset.withFetchWord 40 0x0A0B0C0DBF) .edi = some (0x0A0B0C0D, 0x7C05) ∧
    haltAfter (State.reset.withFetchWord 16 0x3CC7) = some ⟨.halted, .unimplementedModrm, 0xC7, 0x3C, 0x7C00⟩ ∧
    memAfter (State.reset.withFetchWord 80 0x1122334400001000_86C7) 0x1000 =
      some ([0x44, 0x33, 0x22, 0x11], 0x7C0A) := by decide

/-- A write of 0 removes the entry, and equal memories are equal data. -/
theorem test_memory_canonical :
    Memory.write (Memory.write (Memory.write [] 5 1) 3 2) 5 0 = [(3, 2)] ∧
    Memory.writeBytes [] 3 [2, 0, 1] = Memory.write (Memory.write [] 5 1) 3 2 := by decide

/-- The pseudocode step runs too (Scenario A). -/
theorem test_pseudoStep :
    (nextOf (pseudoStep (start [0xB8, 0x78, 0x56, 0x34, 0x12]))).map (fun t => (readReg t .eax, t.eip)) =
      some (0x12345678, 0x7C05) := by decide

/-! ## Witnesses: every statement's hypotheses are met together, clause by clause -/

theorem witness_DecodeOfEncodeIsTheInstruction :
    Instr.wf (.movMemDisp32High 7 .edi 0xFFFFFFFF 0x80000000) = true ∧ Instr.wf (.movMemLow 0 .eax 0) = true := by
  decide

theorem witness_DecodedBytesAreTheEncoding : decode [0xEB, 0xFE, 0x90] = .instr (.jmpRel8 0xFE) [0x90] := by decide

/-- The ends of the bound range and the bytes beside them. -/
theorem witness_DispatchTableIsTheOpcodeMap :
    (0xB8 ≤ (0xB8 : Byte).toNat ∧ (0xB8 : Byte).toNat ≤ 0xBF) ∧ (0xB8 ≤ (0xBF : Byte).toNat ∧ (0xBF : Byte).toNat ≤ 0xBF) ∧
    (0xB7 : Byte) ∉ boundOpcodes ∧ (0xC0 : Byte) ∉ boundOpcodes := by decide

theorem witness_DecoderFindsExactlyTheUnboundOpcodes :
    decode [0xB7, 0x01] = .unboundOpcode 0xB7 ∧ (0xB7 : Byte) ∉ boundOpcodes ∧ (0xB8 : Byte) ∈ boundOpcodes := by decide

theorem witness_TableRowsAreDisjointAndSelected :
    decode [0xC7, 0xC0, 0, 0, 0, 0] = .instr (.movRmReg 0 .eax 0) [] ∧ dispatchTable 0xF4 = .empty := by decide

theorem witness_UnmodeledModrmBytesAreTheFourGroups :
    (0x3C : Byte) &&& 0xC7 ∈ unmodeledPatterns ∧ (0xC4 : Byte) &&& 0xC7 ∉ unmodeledPatterns ∧
    decode [0xC7, 0x3C] = .instr (.movUnmodeledNoDispSib 7) [] ∧ (Instr.movUnmodeledNoDispSib 7).row.length = none := by
  decide

theorem witness_TruncatedBytesAreProperBeginnings :
    decode [0xC7] = .truncated ∧ decode [] = .truncated ∧ decode [0xC7, 0x04] ≠ .truncated := by decide

theorem witness_SignExtensionOfEveryByte : (0x80 : Byte).getLsbD 7 = true ∧ (0x7F : Byte).getLsbD 7 = false := by decide

/-- The last byte of memory, and the first beyond it. -/
theorem witness_ByteReadIsBoundsChecked :
    (0xFFFFF : Word).toNat < State.reset.config.memCapacity ∧ State.reset.config.memCapacity ≤ (0x100000 : Word).toNat := by
  decide

/-- The last word of memory, and the first that straddles the end. -/
theorem witness_WordReadIsLittleEndianAndBoundsChecked :
    (0xFFFFC : Word).toNat + 3 < State.reset.config.memCapacity ∧
    State.reset.config.memCapacity ≤ (0xFFFFD : Word).toNat + 3 := by decide

theorem witness_StoreThenLoadReturnsTheWord :
    (0xFFFFC : Word).toNat + 3 < State.reset.config.memCapacity ∧
    State.reset.config.memCapacity ≤ (0xFFFFD : Word).toNat + 3 ∧
    (nextOf (toOutcome (memWrite32 State.reset 0xFFFFC 0x44332211))).map (fun t => t.mem) =
      some [(0xFFFFC, 0x11), (0xFFFFD, 0x22), (0xFFFFE, 0x33), (0xFFFFF, 0x44)] := by decide

/-- An image that ends at the last byte of memory, and one a byte longer. -/
theorem witness_LoadCopiesTheImageOrFails :
    14 + [(0xEB : Byte), 0xFE].length ≤ (State.resetWith tiny).config.memCapacity ∧
    (State.resetWith tiny).config.memCapacity < 14 + [(0xEB : Byte), 0xFE, 0].length := by decide

/-- The last word of memory, and the first that straddles the end, for a base register. -/
theorem witness_MemoryFormsStoreTheImmediate :
    (eaBase (writeReg State.reset .ebx 0xFFFFC) .ebx).toNat + 3 < State.reset.config.memCapacity ∧
    State.reset.config.memCapacity ≤ (eaDisp8 (writeReg State.reset .ebx 0xFFFFC) .ebx 1).toNat + 3 ∧
    (eaDisp32 (writeReg State.reset .ebx 0xFFFFD) .ebx 0xFFFFFFFF).toNat + 3 < State.reset.config.memCapacity := by decide

/-- A step that completes, and one whose store is fatal. -/
theorem witness_StepRunsTheDecodedInstruction :
    (start [0xEB, 0x00]).run = .running ∧ decode (fetchWindow (start [0xEB, 0x00])) =
      .instr (.jmpRel8 0) [0, 0, 0, 0, 0, 0, 0, 0] ∧
    nextOf (exec (.jmpRel8 0) (start [0xEB, 0x00])) = some { start [0xEB, 0x00] with eip := 0x7C02 } ∧
    faultOf (exec (.movMemLow 0 .eax 1) (writeReg State.reset .eax 0xFFFFD)) = some (.boundsViolation 0x100000) := by
  decide

/-- An instruction that ends at the last byte of memory. -/
theorem witness_EncodingAtEipIsExecuted :
    (tinyAt 14 [0, 0, 0, 0, 0, 0, 0, 0, 0, 0, 0, 0, 0, 0, 0xEB, 0x80]).config.valid = true ∧
    Instr.wf (.jmpRel8 0x80) = true ∧ 14 + (encode (.jmpRel8 0x80)).length ≤ 16 ∧ encode (.jmpRel8 0x80) = [0xEB, 0x80] ∧
    readByte (tinyAt 14 [0, 0, 0, 0, 0, 0, 0, 0, 0, 0, 0, 0, 0, 0, 0xEB, 0x80]) 14 = 0xEB ∧
    readByte (tinyAt 14 [0, 0, 0, 0, 0, 0, 0, 0, 0, 0, 0, 0, 0, 0, 0xEB, 0x80]) 15 = 0x80 := by decide

/-- The instruction that ends at the last byte (V11), and the one a byte later (V12), for the first and the last
register number. -/
theorem witness_ShortMoveStep :
    (0, Reg.eax) ∈ numberedRegs ∧ (7, Reg.edi) ∈ numberedRegs ∧
    AtOpcode (startAt 0xFFFFB [0xB8, 1, 2, 3, 4]) (0xB8 + BitVec.ofNat 8 0) ∧
    0xFFFFB + 4 < (startAt 0xFFFFB [0xB8, 1, 2, 3, 4]).config.memCapacity ∧
    AtOpcode (startAt 0xFFFFC [0xBF]) (0xB8 + BitVec.ofNat 8 7) ∧
    (startAt 0xFFFFC [0xBF]).config.memCapacity ≤ 0xFFFFC + 4 := by unfold AtOpcode; decide

/-- V84 (no ModRM byte), V25 (no immediate), and the form that ends at the last byte. -/
theorem witness_RegisterFormStep :
    (AtOpcode (startAt 0xFFFFF [0xC7]) 0xC7 ∧ (startAt 0xFFFFF [0xC7]).config.memCapacity ≤ 0xFFFFF + 1) ∧
    (AtOpcode (startAt 0xFFFFE [0xC7, 0xC0]) 0xC7 ∧ 0xFFFFE + 1 < (startAt 0xFFFFE [0xC7, 0xC0]).config.memCapacity ∧
      (startAt 0xFFFFE [0xC7, 0xC0]).config.memCapacity ≤ 0xFFFFE + 5 ∧
      (fieldByte (startAt 0xFFFFE [0xC7, 0xC0]) 1).toNat / 64 = 3 ∧
      ((fieldByte (startAt 0xFFFFE [0xC7, 0xC0]) 1).toNat % 8, Reg.eax) ∈ numberedRegs) ∧
    (AtOpcode (startAt 0xFFFFA [0xC7, 0xC4, 1, 2, 3, 4]) 0xC7 ∧
      0xFFFFA + 5 < (startAt 0xFFFFA [0xC7, 0xC4, 1, 2, 3, 4]).config.memCapacity ∧
      (fieldByte (startAt 0xFFFFA [0xC7, 0xC4, 1, 2, 3, 4]) 1).toNat / 64 = 3 ∧
      ((fieldByte (startAt 0xFFFFA [0xC7, 0xC4, 1, 2, 3, 4]) 1).toNat % 8, Reg.esp) ∈ numberedRegs) := by
  unfold AtOpcode; decide

/-- V36 (the store at the last word), an immediate out of bounds, V80 (the store out of bounds). -/
theorem witness_BaseFormStep :
    (∃ s : State, AtOpcode s 0xC7 ∧ (fieldByte s 1).toNat / 64 = 0 ∧ ((fieldByte s 1).toNat % 8, Reg.eax) ∈ numberedRegs ∧
      s.eip.toNat + 6 ≤ s.config.memCapacity ∧ (readReg s .eax).toNat + 3 < s.config.memCapacity) ∧
    (∃ s : State, AtOpcode s 0xC7 ∧ (fieldByte s 1).toNat / 64 = 0 ∧ ((fieldByte s 1).toNat % 8, Reg.edi) ∈ numberedRegs ∧
      s.config.memCapacity < s.eip.toNat + 6 ∧ s.eip.toNat + 1 < s.config.memCapacity) ∧
    (∃ s : State, AtOpcode s 0xC7 ∧ (fieldByte s 1).toNat / 64 = 0 ∧ ((fieldByte s 1).toNat % 8, Reg.eax) ∈ numberedRegs ∧
      s.eip.toNat + 6 ≤ s.config.memCapacity ∧ s.config.memCapacity ≤ (readReg s .eax).toNat + 3) := by
  unfold AtOpcode
  exact ⟨⟨writeReg (start [0xC7, 0x00, 1, 2, 3, 4]) .eax 0xFFFFC, by decide⟩, ⟨startAt 0xFFFFE [0xC7, 0x07], by decide⟩,
    ⟨writeReg (start [0xC7, 0x00, 1, 2, 3, 4]) .eax 0xFFFFD, by decide⟩⟩

/-- V87 (ends at the last byte), V85 (immediate out of bounds), V46 (store out of bounds). -/
theorem witness_Disp8FormStep :
    (∃ s : State, AtOpcode s 0xC7 ∧ (fieldByte s 1).toNat / 64 = 1 ∧ ((fieldByte s 1).toNat % 8, Reg.eax) ∈ numberedRegs ∧
      ((0x9000 : Word).toNat : Int) = ((readReg s .eax).toNat + (fieldByte s 2).toInt) % 2 ^ 32 ∧
      s.eip.toNat + 7 ≤ s.config.memCapacity ∧ (0x9000 : Word).toNat + 3 < s.config.memCapacity) ∧
    (∃ s : State, AtOpcode s 0xC7 ∧ (fieldByte s 1).toNat / 64 = 1 ∧ ((fieldByte s 1).toNat % 8, Reg.eax) ∈ numberedRegs ∧
      ((0 : Word).toNat : Int) = ((readReg s .eax).toNat + (fieldByte s 2).toInt) % 2 ^ 32 ∧
      s.config.memCapacity < s.eip.toNat + 7 ∧ s.eip.toNat + 1 < s.config.memCapacity) ∧
    (∃ s : State, AtOpcode s 0xC7 ∧ (fieldByte s 1).toNat / 64 = 1 ∧ ((fieldByte s 1).toNat % 8, Reg.eax) ∈ numberedRegs ∧
      ((0xFFFFFFFF : Word).toNat : Int) = ((readReg s .eax).toNat + (fieldByte s 2).toInt) % 2 ^ 32 ∧
      s.eip.toNat + 7 ≤ s.config.memCapacity ∧ s.config.memCapacity ≤ (0xFFFFFFFF : Word).toNat + 3) := by
  unfold AtOpcode
  exact ⟨⟨writeReg (startAt 0xFFFF9 [0xC7, 0x40, 0x00, 1, 2, 3, 4]) .eax 0x9000, by decide⟩,
    ⟨startAt 0xFFFFD [0xC7, 0x40, 0x00], by decide⟩, ⟨start [0xC7, 0x40, 0xFF, 1, 2, 3, 4], by decide⟩⟩

/-- V49 (the address 0), a displacement out of bounds, a store that straddles the end. -/
theorem witness_Disp32FormStep :
    (∃ s : State, AtOpcode s 0xC7 ∧ (fieldByte s 1).toNat / 64 = 2 ∧ ((fieldByte s 1).toNat % 8, Reg.ebx) ∈ numberedRegs ∧
      ((0 : Word).toNat : Int) = ((readReg s .ebx).toNat + (fieldWord s 2).toInt) % 2 ^ 32 ∧
      s.eip.toNat + 10 ≤ s.config.memCapacity ∧ (0 : Word).toNat + 3 < s.config.memCapacity) ∧
    (∃ s : State, AtOpcode s 0xC7 ∧ (fieldByte s 1).toNat / 64 = 2 ∧ ((fieldByte s 1).toNat % 8, Reg.ebp) ∈ numberedRegs ∧
      ((0 : Word).toNat : Int) = ((readReg s .ebp).toNat + (fieldWord s 2).toInt) % 2 ^ 32 ∧
      s.config.memCapacity < s.eip.toNat + 10 ∧ s.eip.toNat + 1 < s.config.memCapacity) ∧
    (∃ s : State, AtOpcode s 0xC7 ∧ (fieldByte s 1).toNat / 64 = 2 ∧ ((fieldByte s 1).toNat % 8, Reg.edi) ∈ numberedRegs ∧
      ((0xFFFFD : Word).toNat : Int) = ((readReg s .edi).toNat + (fieldWord s 2).toInt) % 2 ^ 32 ∧
      s.eip.toNat + 10 ≤ s.config.memCapacity ∧ s.config.memCapacity ≤ (0xFFFFD : Word).toNat + 3) := by
  unfold AtOpcode
  exact ⟨⟨writeReg (start [0xC7, 0x83, 0x00, 0x00, 0xFF, 0xFF, 1, 2, 3, 4]) .ebx 0x10000, by decide⟩,
    ⟨startAt 0xFFFFE [0xC7, 0x85], by decide⟩, ⟨start [0xC7, 0x87, 0xFD, 0xFF, 0x0F, 0x00, 1, 2, 3, 4], by decide⟩⟩

/-- V76: nothing after the ModRM byte. -/
theorem witness_UnmodeledModrmStep :
    AtOpcode (startAt 0xFFFFE [0xC7, 0x04]) 0xC7 ∧ 0xFFFFE + 1 < (startAt 0xFFFFE [0xC7, 0x04]).config.memCapacity ∧
    fieldByte (startAt 0xFFFFE [0xC7, 0x04]) 1 &&& 0xC7 ∈ unmodeledPatterns := by unfold AtOpcode; decide

/-- V90 (a target other than 0), S8 (the target 0), V59 (the displacement byte out of bounds). -/
theorem witness_ShortJumpStep :
    (AtOpcode (startAt 0xFFFFE [0xEB]) 0xEB ∧ 0xFFFFE + 1 < (startAt 0xFFFFE [0xEB]).config.memCapacity ∧
      ((0x100000 : Word).toNat : Int) = (0xFFFFE + (fieldByte (startAt 0xFFFFE [0xEB]) 1).toInt + 2) % 2 ^ 32) ∧
    (AtOpcode (startAt 0 [0xEB, 0xFE]) 0xEB ∧
      ((0 : Word).toNat : Int) = (0 + (fieldByte (startAt 0 [0xEB, 0xFE]) 1).toInt + 2) % 2 ^ 32) ∧
    (AtOpcode (startAt 0xFFFFF [0xEB]) 0xEB ∧ (startAt 0xFFFFF [0xEB]).config.memCapacity ≤ 0xFFFFF + 1) := by
  unfold AtOpcode; decide

/-- The jump that ends at the last byte, V68a (the target 0), V69 (the displacement out of bounds). -/
theorem witness_NearJumpStep :
    (AtOpcode (startAt 0xFFFFB [0xE9]) 0xE9 ∧ 0xFFFFB + 4 < (startAt 0xFFFFB [0xE9]).config.memCapacity ∧
      ((0x100000 : Word).toNat : Int) = (0xFFFFB + (fieldWord (startAt 0xFFFFB [0xE9]) 1).toInt + 5) % 2 ^ 32) ∧
    (AtOpcode (startAt 0 [0xE9, 0xFB, 0xFF, 0xFF, 0xFF]) 0xE9 ∧
      ((0 : Word).toNat : Int) = (0 + (fieldWord (startAt 0 [0xE9, 0xFB, 0xFF, 0xFF, 0xFF]) 1).toInt + 5) % 2 ^ 32) ∧
    (AtOpcode (startAt 0xFFFFC [0xE9]) 0xE9 ∧ (startAt 0xFFFFC [0xE9]).config.memCapacity ≤ 0xFFFFC + 4) := by
  unfold AtOpcode; decide

/-- The last byte of memory, and address 0. -/
theorem witness_UnboundOpcodeHaltsTheEngine :
    (startAt 0xFFFFF [0xF4]).run = .running ∧ 0xFFFFF < (startAt 0xFFFFF [0xF4]).config.memCapacity ∧
    readByte (startAt 0xFFFFF [0xF4]) 0xFFFFF = 0xF4 ∧ (0xF4 : Byte) ∉ boundOpcodes ∧
    readByte (startAt 0 []) 0 = 0x00 ∧ (0x00 : Byte) ∉ boundOpcodes := by decide

/-- V81 and V83. -/
theorem witness_OpcodeFetchOutOfBoundsIsFatal :
    (startAt 0x100000 []).run = .running ∧ (startAt 0x100000 []).config.memCapacity ≤ (0x100000 : Word).toNat ∧
    (startAt 0xFFFFFF92 []).config.memCapacity ≤ (startAt 0xFFFFFF92 []).eip.toNat := by decide

/-- A handler that leaves EIP 0, one that does not, and one that halts the engine. -/
theorem witness_SentinelIsTestedAfterTheHandler :
    (decode (fetchWindow (tinyAt 14 [0, 0, 0, 0, 0, 0, 0, 0, 0, 0, 0, 0, 0, 0, 0xEB, 0xF0])) = .instr (.jmpRel8 0xF0) [] ∧
      (nextOf (exec (.jmpRel8 0xF0) (tinyAt 14 []))).map (fun t => (t.run, t.eip)) = some (.running, 0)) ∧
    (decode (fetchWindow (tinyAt 14 [0, 0, 0, 0, 0, 0, 0, 0, 0, 0, 0, 0, 0, 0, 0xEB, 0x00])) = .instr (.jmpRel8 0x00) [] ∧
      (nextOf (exec (.jmpRel8 0x00) (tinyAt 14 []))).map (fun t => (t.run, t.eip)) = some (.running, 16)) ∧
    (decode (fetchWindow (tinyAt 14 [0, 0, 0, 0, 0, 0, 0, 0, 0, 0, 0, 0, 0, 0, 0xC7, 0x04])) =
      .instr (.movUnmodeledNoDispSib 0) [] ∧
      (nextOf (exec (.movUnmodeledNoDispSib 0) (tinyAt 14 []))).map (fun t => t.run) = some .halted) := by decide

theorem witness_StoppedEngineStaysStopped :
    (halt .endOfProgram .none State.reset).run ≠ .running ∧ (fatalStop State.reset).run ≠ .running := by decide

/-- The defaults, and the bounds of R6. -/
theorem witness_StepIsThePseudocodeStep :
    State.reset.config.valid = true ∧ tiny.valid = true ∧
    Config.valid { Config.flat with memCapacity := 0xFFFFFFF0 } = true ∧
    Config.valid { Config.flat with memCapacity := 0xFFFFFFF1 } = false := by decide

/-- A running state with memory listed, and a halt of each cause (which no step leaves). -/
theorem witness_StepKeepsTheInvariant :
    (writeReg (start [0xC7, 0x00, 1, 2, 3, 4]) .eax 0xFFFFC).inv = true ∧
    (∃ t, step (writeReg (start [0xC7, 0x00, 1, 2, 3, 4]) .eax 0xFFFFC) = .next t) ∧
    (haltUnimplementedOpcode 0xF4 State.reset).inv = true ∧ (haltUnimplementedModrm 0x3C State.reset).inv = true ∧
    (halt .endOfProgram .none (startAt 0 [])).inv = true ∧ (fatalStop State.reset).inv = true :=
  ⟨by decide, ⟨_, rfl⟩, by decide, by decide, by decide, by decide⟩

theorem witness_ResetSatisfiesTheInvariant : Config.default.valid = true ∧ Config.flat.valid = true := by decide

theorem witness_EveryRunSatisfiesTheInvariant : tiny.valid = true ∧ ∃ s, boot tiny [0xEB, 0xFE] = .next s :=
  ⟨by decide, ⟨_, rfl⟩⟩

/-- An image that fills memory, an image a byte too long, and the empty image. -/
theorem witness_BootPlacesTheImage :
    tiny.loadOffset.toNat + (List.replicate 16 (0xF4 : Byte)).length ≤ tiny.memCapacity ∧
    tiny.memCapacity < tiny.loadOffset.toNat + (List.replicate 17 (0xF4 : Byte)).length ∧
    tiny.loadOffset.toNat + ([] : List Byte).length ≤ tiny.memCapacity := by decide

theorem witness_FlagsAndParametersNeverChange : ∃ t, step (start [0xEB, 0x00]) = .next t := ⟨_, rfl⟩

/-- A step that changes a register, and one that changes the first and the last byte of a word. -/
theorem witness_StepChangesOneRegisterOrMemory :
    (∃ t, step (start [0xB9, 1, 0, 0, 0]) = .next t ∧
      readReg t .ecx ≠ readReg (start [0xB9, 1, 0, 0, 0]) .ecx) ∧
    (∃ t, step (start [0xC7, 0x01, 1, 0, 0, 2]) = .next t ∧
      readByte t 0 ≠ readByte (start [0xC7, 0x01, 1, 0, 0, 2]) 0 ∧
      readByte t 3 ≠ readByte (start [0xC7, 0x01, 1, 0, 0, 2]) 3) :=
  ⟨⟨_, rfl, by decide⟩, ⟨_, rfl, by decide⟩⟩

/-- Both ways of naming ESP. -/
theorem witness_EspChangesOnlyByName :
    (start [0xBC, 1, 0, 0, 0]).config.valid = true ∧
    (∃ t, step (start [0xBC, 1, 0, 0, 0]) = .next t ∧ readReg t .esp ≠ readReg (start [0xBC, 1, 0, 0, 0]) .esp) ∧
    (∃ t, step (start [0xC7, 0xC4, 1, 0, 0, 0]) = .next t ∧
      readReg t .esp ≠ readReg (start [0xC7, 0xC4, 1, 0, 0, 0]) .esp) :=
  ⟨by decide, ⟨_, rfl, by decide⟩, ⟨_, rfl, by decide⟩⟩

theorem witness_OnlyJumpsEndTheProgram :
    (startAt 0 [0xEB, 0xFE]).config.valid = true ∧ (startAt 0 [0xEB, 0xFE]).haltCause ≠ .endOfProgram ∧
    ∃ t, step (startAt 0 [0xEB, 0xFE]) = .next t ∧ t.haltCause = .endOfProgram :=
  ⟨by decide, by decide, ⟨_, rfl, by decide⟩⟩

theorem witness_UnimplementedHaltsArePrecise :
    (∃ t, step (start [0xF4]) = .next t ∧ t.run = .halted ∧ t.haltCause = .unimplementedOpcode) ∧
    (∃ t, step (start [0xC7, 0x04]) = .next t ∧ t.run = .halted ∧ t.haltCause = .unimplementedModrm) :=
  ⟨⟨_, rfl, by decide⟩, ⟨_, rfl, by decide⟩⟩

theorem witness_StepNeverRefusesAndFaultsOnlyOutOfBounds :
    step (startAt 0x100000 []) = .fault (.boundsViolation 0x100000) ∧ (startAt 0x100000 []).run = .running :=
  ⟨rfl, by decide⟩

/-- A store step under two register files, with different addresses, both completing. -/
theorem witness_PathDoesNotDependOnRegisters :
    (∃ t, step (start [0xC7, 0x00, 1, 2, 3, 4]) = .next t) ∧
    (∃ t, step { start [0xC7, 0x00, 1, 2, 3, 4] with
      regs := { State.reset.regs with eax := 0xFFFFC, edi := 7 } } = .next t) := ⟨⟨_, rfl⟩, ⟨_, rfl⟩⟩

/-- Memory that differs in the first byte after the ten. -/
theorem witness_MemoryMattersOnlyAsInstructionBytes :
    (start [0xEB, 0x00]).config.valid = true ∧
    (∀ k, k < 10 → Memory.read (Memory.writeBytes [] 0x7C00 [0xEB, 0, 0, 0, 0, 0, 0, 0, 0, 0, 0xF4])
      ((start [0xEB, 0x00]).eip.toNat + k) = readByte (start [0xEB, 0x00]) ((start [0xEB, 0x00]).eip.toNat + k)) ∧
    ∃ t, step (start [0xEB, 0x00]) = .next t := ⟨by decide, by decide, ⟨_, rfl⟩⟩

theorem witness_StoreIsSeenByTheNextFetch :
    State.reset.config.valid = true ∧ ∃ t, memWrite32 State.reset 0xFFFFC 0x44332211 = .ok t := ⟨by decide, ⟨_, rfl⟩⟩

/-- V54 and S8. -/
theorem witness_JumpToItselfRunsForever :
    (AtOpcode (start [0xEB, 0xFE]) 0xEB ∧ 0x7C00 + 1 < (start [0xEB, 0xFE]).config.memCapacity ∧
      fieldByte (start [0xEB, 0xFE]) 1 = 0xFE ∧ (start [0xEB, 0xFE]).eip ≠ 0) ∧
    (AtOpcode (startAt 0 [0xEB, 0xFE]) 0xEB ∧ fieldByte (startAt 0 [0xEB, 0xFE]) 1 = 0xFE ∧
      (startAt 0 [0xEB, 0xFE]).eip = 0) := by unfold AtOpcode; decide

/-- A store and a jump, under two values of the store's base register: both turns fetch alike and neither is fatal. -/
theorem witness_RunsPathDependsOnRegistersOnlyThroughCode :
    let s := start [0xC7, 0x43, 0x01, 4, 3, 2, 1, 0xEB, 0x03]
    let s' := writeReg s .ebx 0x9000
    s.config.valid = true ∧ s'.eip = s.eip ∧ EngineSame s s' ∧
    (∀ k, k < 2 → FetchesAlike (runLoop k s) (runLoop k s')) ∧
    (∀ k, k ≤ 2 → (runLoop k s).run ≠ .fatal ∧ (runLoop k s').run ≠ .fatal) := by
  unfold EngineSame FetchesAlike; decide

theorem witness_MemoryIsZeroButForTheImage :
    (∃ s, boot tiny [0xEB, 0xFE] = .next s) ∧ (1 < [(0xEB : Byte), 0xFE].length) ∧
    tiny.loadOffset.toNat + [(0xEB : Byte), 0xFE].length ≤ 2 := ⟨⟨_, rfl⟩, by decide, by decide⟩

/-- The byte `0x80` and a negative word, and a fetch of each kind that stops. -/
theorem witness_SignedFetchesReadTheSameBytes :
    code8 (tinyAt 0 [0xEB, 0x80]) 1 = .ok 0x80 ∧ code8 (tinyAt 15 []) 1 = .error (.boundsViolation 16) ∧
    code32 (tinyAt 0 [0xE9, 0, 0, 0, 0x80]) 1 = .ok 0x80000000 ∧
    code32 (tinyAt 12 []) 1 = .error (.boundsViolation 16) := ⟨rfl, rfl, rfl, rfl⟩

/-- A halt of each cause, and a core that is not halted. -/
theorem witness_ReportShowsTheHaltedState :
    (haltUnimplementedOpcode 0xF4 State.reset).run = .halted ∧
    (haltUnimplementedOpcode 0xF4 State.reset).haltCause = .unimplementedOpcode ∧
    (haltUnimplementedModrm 0x3C State.reset).run = .halted ∧
    (haltUnimplementedModrm 0x3C State.reset).haltCause = .unimplementedModrm ∧
    (halt .endOfProgram .none State.reset).run = .halted ∧
    (halt .endOfProgram .none State.reset).haltCause = .endOfProgram ∧ State.reset.run ≠ .halted := by decide

/-- The last byte of memory with the trace on, the first beyond it, and the trace off. -/
theorem witness_TraceHasNoInfluence :
    (State.resetWith { Config.default with traceEnable := true }).config.traceEnable = true ∧
    (State.resetWith { Config.default with traceEnable := true }).run = .running ∧
    (0xFFFFF : Word).toNat < Config.default.memCapacity ∧ Config.default.memCapacity ≤ (0x100000 : Word).toNat ∧
    State.reset.config.traceEnable = false := by decide

end Sys2Proof.Tests
end

section
/-! ## The invariant of the core's state (00_scope.md R6, 10_state.md R28 to R31, 20_memory.md R40, 60_exceptions.md R171):
what it says, and that every effect a step can have keeps it. -/

namespace Sys2Proof.Machine

theorem State.inv_iff (s : State) :
    s.inv = true ↔ s.config.valid = true ∧ Memory.wf s.mem = true ∧ Memory.below s.mem s.config.memCapacity = true ∧
      s.eflags = 0 ∧ statusWf s = true := by
  simp [State.inv, and_assoc]

/-! ### The status values in each engine state -/

theorem statusWf_running_iff {s : State} (hrun : s.run = .running) :
    statusWf s = true ↔ s.haltCause = .none ∧ s.haltOpcode = 0 ∧ s.haltModrm = 0 := by
  cases hc : s.haltCause <;> simp [statusWf, hrun, hc]

theorem statusWf_haltUnimplementedOpcode (s : State) (op : Byte) :
    statusWf (haltUnimplementedOpcode op s) = true ↔ dispatchTable op = .empty ∧ s.haltModrm = 0 := by
  simp [statusWf]

theorem statusWf_haltUnimplementedModrm (s : State) (m : Byte) :
    statusWf (haltUnimplementedModrm m s) = true ↔
      m &&& 0xC7 = 0x04 ∨ m &&& 0xC7 = 0x05 ∨ m &&& 0xC7 = 0x44 ∨ m &&& 0xC7 = 0x84 := by
  simp [statusWf, or_assoc]

theorem statusWf_haltEndOfProgram (s : State) :
    statusWf (halt .endOfProgram .none s) = true ↔ s.eip = 0 ∧ s.haltOpcode = 0 ∧ s.haltModrm = 0 := by
  simp [statusWf, and_assoc]

/-! ### One rule per update -/

theorem inv_writeReg {s : State} (r : Reg) (v : Word) (hs : s.inv = true) : (writeReg s r v).inv = true := hs

/-- A halted core may have to stand at EIP 0, so EIP is free in RUNNING only. -/
theorem inv_setEip {s : State} (v : Word) (hrun : s.run = .running) (hs : s.inv = true) : (setEip s v).inv = true := by
  obtain ⟨hcfg, hwf, hbelow, hflags, hstatus⟩ := s.inv_iff.mp hs
  exact (State.inv_iff _).mpr ⟨hcfg, hwf, hbelow, hflags,
    (statusWf_running_iff (s := setEip s v) hrun).mpr ((statusWf_running_iff hrun).mp hstatus)⟩

theorem inv_writeBytes {s : State} {a : Nat} {bs : List Byte} (hfits : a + bs.length ≤ s.config.memCapacity)
    (hs : s.inv = true) : State.inv { s with mem := Memory.writeBytes s.mem a bs } = true := by
  obtain ⟨hcfg, hwf, hbelow, hflags, hstatus⟩ := s.inv_iff.mp hs
  exact (State.inv_iff _).mpr ⟨hcfg, Memory.writeBytes_wf bs s.mem a hwf,
    Memory.writeBytes_below bs s.mem a _ hfits hbelow, hflags, hstatus⟩

theorem inv_haltUnimplementedOpcode {s : State} {op : Byte} (hrun : s.run = .running) (hop : dispatchTable op = .empty)
    (hs : s.inv = true) : (haltUnimplementedOpcode op s).inv = true := by
  obtain ⟨hcfg, hwf, hbelow, hflags, hstatus⟩ := s.inv_iff.mp hs
  obtain ⟨-, -, hmodrm⟩ := (statusWf_running_iff hrun).mp hstatus
  exact (State.inv_iff _).mpr ⟨hcfg, hwf, hbelow, hflags, (statusWf_haltUnimplementedOpcode s op).mpr ⟨hop, hmodrm⟩⟩

theorem inv_haltUnimplementedModrm {s : State} {m : Byte}
    (hm : m &&& 0xC7 = 0x04 ∨ m &&& 0xC7 = 0x05 ∨ m &&& 0xC7 = 0x44 ∨ m &&& 0xC7 = 0x84) (hs : s.inv = true) :
    (haltUnimplementedModrm m s).inv = true := by
  obtain ⟨hcfg, hwf, hbelow, hflags, -⟩ := s.inv_iff.mp hs
  exact (State.inv_iff _).mpr ⟨hcfg, hwf, hbelow, hflags, (statusWf_haltUnimplementedModrm s m).mpr hm⟩

theorem inv_checkSentinel {s : State} (hs : s.inv = true) : (checkSentinel s).inv = true := by
  rcases checkSentinel_cases s with hsame | ⟨hrun, heip, hhalt⟩
  · rwa [hsame]
  · obtain ⟨hcfg, hwf, hbelow, hflags, hstatus⟩ := s.inv_iff.mp hs
    obtain ⟨-, hopcode, hmodrm⟩ := (statusWf_running_iff hrun).mp hstatus
    rw [hhalt]
    exact (State.inv_iff _).mpr ⟨hcfg, hwf, hbelow, hflags,
      (statusWf_haltEndOfProgram s).mpr ⟨heip, hopcode, hmodrm⟩⟩

/-! ### Instructions and steps -/

theorem ExecEffect.keeps_inv {s t : State} (heffect : ExecEffect s t) (hrun : s.run = .running) (hs : s.inv = true) :
    t.inv = true := by
  rcases heffect with ⟨r, v, e, rfl⟩ | ⟨ea, v, e, hfits, rfl⟩ | ⟨e, rfl⟩ | ⟨m, hm, rfl⟩
  · exact inv_setEip e hrun (inv_writeReg r v hs)
  · exact inv_setEip e hrun (inv_writeBytes (by simpa using hfits) hs)
  · exact inv_setEip e hrun hs
  · exact inv_haltUnimplementedModrm hm hs

/-- Settles O36: a completed step halts on an unbound opcode, or has an effect of `ExecEffect` and then tests the
sentinel; each of these keeps the invariant. -/
theorem stepKeepsTheInvariant : Obligations.StepKeepsTheInvariant := by
  intro s t hs hstep
  obtain ⟨hrun, ⟨op, hdecode, rfl⟩ | ⟨i, rest, u, -, hexec, rfl⟩⟩ := step_eq_next hstep
  · obtain ⟨-, hempty⟩ := decode_eq_unbound hdecode
    exact inv_haltUnimplementedOpcode hrun hempty hs
  · exact inv_checkSentinel ((exec_eq_next hexec).keeps_inv hrun hs)

end Sys2Proof.Machine
end

section
/-! ## Sign extension of a byte by its bit 7 (00_scope.md R9) -/

namespace Sys2Proof.Machine

theorem sext8_of_bit7_set {b : Byte} (h : b.getLsbD 7 = true) : sext8 b = 0xFFFFFF00 ||| b.zeroExtend 32 := by
  have hmsb : b.msb = true := h
  have hhigh (i : Nat) (hi : i < 32) : (0xFFFFFF00 : Word).getLsbD i = decide (8 ≤ i) := by
    revert i; decide
  apply BitVec.eq_of_getLsbD_eq
  intro i hi
  rw [sext8, BitVec.getLsbD_signExtend, BitVec.getLsbD_or, hhigh i hi, BitVec.getLsbD_setWidth, hmsb]
  by_cases hlow : i < 8
  · simp [hi, hlow, Nat.not_le.mpr hlow]
  · simp [hi, hlow, Nat.le_of_not_lt hlow]

theorem sext8_of_bit7_clear {b : Byte} (h : b.getLsbD 7 = false) : sext8 b = b.zeroExtend 32 :=
  BitVec.signExtend_eq_setWidth_of_msb_false h

/-- Settles O9: bit 7 is the sign bit, and it decides the 24 bits above the byte. -/
theorem signExtensionOfEveryByte : Obligations.SignExtensionOfEveryByte := by
  exact ⟨fun b => ⟨sext8_of_bit7_set, fun h => (sext8_of_bit7_clear h).trans BitVec.zero_or.symm,
    BitVec.zero_or.symm⟩, rfl, rfl, rfl, rfl, rfl, BitVec.signExtend_eq⟩

end Sys2Proof.Machine
end

section
/-! ## Single operations: a register write, reset, the turns of a stopped core, the opcode fetch out of bounds
(10_state.md R21, R23, R27, R30, R36) -/

namespace Sys2Proof.Machine

/-! ### The register write -/

/-- Settles O10: a register write leaves every field but the register file alone, and in it every slot but `r`. -/
theorem registerWriteReplacesOneRegister : Obligations.RegisterWriteReplacesOneRegister := by
  intro s r v
  exact ⟨readReg_writeReg_same s r v, fun q hq => readReg_writeReg_other s r q v hq, fun _ => rfl, rfl,
    rfl, rfl, rfl, rfl, rfl, rfl⟩

/-! ### Reset -/

theorem inv_resetWith {c : Config} (hc : c.valid = true) : (State.resetWith c).inv = true :=
  (State.inv_iff _).mpr ⟨hc, rfl, rfl, rfl, (statusWf_running_iff rfl).mpr ⟨rfl, rfl, rfl⟩⟩

/-- Settles O37: reset is `resetWith` at the default parameters, which are legal. -/
theorem resetSatisfiesTheInvariant : Obligations.ResetSatisfiesTheInvariant :=
  ⟨inv_resetWith (by decide), fun _ hc => inv_resetWith hc⟩

/-- Settles O39: each value is the field of `resetWith`; the empty list of cells reads 0 everywhere. -/
theorem resetValues : Obligations.ResetValues := by
  refine ⟨?_, rfl, rfl, rfl, rfl⟩
  rintro c _ rfl
  exact ⟨rfl, rfl, rfl, rfl, rfl, rfl, rfl, rfl, rfl, rfl, fun _ => rfl, rfl, rfl, rfl, rfl, rfl⟩

/-! ### Turns of the run loop -/

theorem turn_of_stopped {s : State} (h : s.run ≠ .running) : turn s = s := by
  unfold turn
  cases hrun : s.run with
  | running => exact absurd hrun h
  | halted => rfl
  | fatal => rfl

theorem turn_of_fault {s : State} {f : Fault} (hrun : s.run = .running) (h : step s = .fault f) :
    turn s = fatalStop s := by
  simp only [turn, hrun, h]

theorem runLoop_of_stopped {s : State} (h : s.run ≠ .running) (n : Nat) : runLoop n s = s := by
  induction n with
  | zero => rfl
  | succ n ih => rw [runLoop, turn_of_stopped h, ih]

/-- Settles O34: a stopped core has no step, and its turn is the identity, so any number of turns is. -/
theorem stoppedEngineStaysStopped : Obligations.StoppedEngineStaysStopped :=
  fun _ h => ⟨step_stopped h, runLoop_of_stopped h⟩

/-! ### The opcode fetch -/

/-- With EIP out of bounds the window is empty, so the fetch that failed is the opcode's. -/
theorem step_of_eip_ge {s : State} (hrun : s.run = .running) (h : s.config.memCapacity ≤ s.eip.toNat) :
    step s = .fault (.boundsViolation s.eip.toNat) := by
  have hwindow : fetchWindow s = [] := fetchWindow_of_ge h
  have hfault : fetchFault s = .boundsViolation s.eip.toNat := by
    simp [fetchFault, hwindow, boundsFault, Nat.max_eq_left h]
  rw [step_running hrun, hwindow, ← hfault]
  rfl

/-- Settles O32: the step faults at EIP, and the turn of a faulting step changes RUN only. -/
theorem opcodeFetchOutOfBoundsIsFatal : Obligations.OpcodeFetchOutOfBoundsIsFatal := by
  intro s hrun hge
  have hstep := step_of_eip_ge hrun hge
  exact ⟨hstep, turn_of_fault hrun hstep⟩

end Sys2Proof.Machine
end

section
/-! ## EFLAGS and the parameters, which no step changes (10_state.md R28, 00_scope.md R13) -/

namespace Sys2Proof.Machine

theorem ExecEffect.keeps_flags_config {s t : State} (heffect : ExecEffect s t) :
    t.eflags = s.eflags ∧ t.config = s.config := by
  rcases heffect with ⟨r, v, e, rfl⟩ | ⟨ea, v, e, -, rfl⟩ | ⟨e, rfl⟩ | ⟨m, -, rfl⟩ <;>
    exact ⟨rfl, rfl⟩

/-- Settles O41: no effect of an instruction, no halt and no sentinel test writes EFLAGS or a parameter. -/
theorem flagsAndParametersNeverChange : Obligations.FlagsAndParametersNeverChange := by
  intro s t hstep
  obtain ⟨-, ⟨op, -, rfl⟩ | ⟨i, rest, u, -, hexec, rfl⟩⟩ := step_eq_next hstep
  · exact ⟨rfl, rfl⟩
  · obtain ⟨hflags, hconfig⟩ := (exec_eq_next hexec).keeps_flags_config
    exact ⟨(checkSentinel_eflags u).trans hflags, (checkSentinel_config u).trans hconfig⟩

end Sys2Proof.Machine
end

section
/-! ## What a decoded instruction says of the bytes: they begin with its encoding (30_encoding.md R72, R80,
41_modrm.md R118) -/

namespace Sys2Proof

/-- What an instruction whose last field is a word answers. -/
theorem takeWord_instr {bs rest : List Byte} {f : Word → Instr} {i : Instr}
    (h : takeWord bs (fun w r => .instr (f w) r) = .instr i rest) : ∃ w, bs = bytesOfWord w ++ rest ∧ i = f w := by
  obtain ⟨w, _, rfl, hk⟩ := takeWord_eq_instr h
  cases hk
  exact ⟨w, rfl, rfl⟩

/-- What an instruction with a byte and then a word field answers. -/
theorem takeByte_takeWord_instr {bs rest : List Byte} {f : Byte → Word → Instr} {i : Instr}
    (h : takeByte bs (fun d bs' => takeWord bs' fun w r => .instr (f d w) r) = .instr i rest) :
    ∃ d w, bs = d :: (bytesOfWord w ++ rest) ∧ i = f d w := by
  obtain ⟨d, _, rfl, hk⟩ := takeByte_eq_instr h
  obtain ⟨w, rfl, hi⟩ := takeWord_instr hk
  exact ⟨d, w, rfl, hi⟩

/-- What an instruction with two word fields answers. -/
theorem takeWord_takeWord_instr {bs rest : List Byte} {f : Word → Word → Instr} {i : Instr}
    (h : takeWord bs (fun d bs' => takeWord bs' fun w r => .instr (f d w) r) = .instr i rest) :
    ∃ d w, bs = bytesOfWord d ++ (bytesOfWord w ++ rest) ∧ i = f d w := by
  obtain ⟨d, _, rfl, hk⟩ := takeWord_eq_instr h
  obtain ⟨w, rfl, hi⟩ := takeWord_instr hk
  exact ⟨d, w, rfl, hi⟩

theorem wf_movR32 (r : Reg) (imm : Word) : (Instr.movR32 r imm).wf = true := by cases r <;> rfl

/-- Opcode `0xC7`: each row answers the instruction whose encoding has these fields, its base in the row's group. -/
theorem decodeMi_eq_instr {mode : AddrMode} {reg : BitVec 3} {rm : Reg} {bs rest : List Byte} {i : Instr}
    (h : decodeMi mode reg rm bs = .instr i rest) :
    i.wf = true ∧ 0xC7 :: modrmByte mode reg rm :: bs = encode i ++ rest := by
  unfold decodeMi at h
  split at h
  · obtain ⟨imm, rfl, rfl⟩ := takeWord_instr h
    exact ⟨rfl, rfl⟩
  · next hgroup =>
    obtain ⟨imm, rfl, rfl⟩ := takeWord_instr h
    exact ⟨rm.group_low_iff.mp hgroup, rfl⟩
  · next hgroup =>
    obtain rfl := rm.group_esp_iff.mp hgroup
    cases h
    exact ⟨rfl, rfl⟩
  · next hgroup =>
    obtain rfl := rm.group_ebp_iff.mp hgroup
    cases h
    exact ⟨rfl, rfl⟩
  · next hgroup =>
    obtain ⟨imm, rfl, rfl⟩ := takeWord_instr h
    exact ⟨rm.group_high_iff.mp hgroup, rfl⟩
  · next hgroup =>
    obtain ⟨d, imm, rfl, rfl⟩ := takeByte_takeWord_instr h
    exact ⟨rm.group_low_iff.mp hgroup, rfl⟩
  · next hgroup =>
    obtain rfl := rm.group_esp_iff.mp hgroup
    cases h
    exact ⟨rfl, rfl⟩
  · next hgroup =>
    obtain rfl := rm.group_ebp_iff.mp hgroup
    obtain ⟨d, imm, rfl, rfl⟩ := takeByte_takeWord_instr h
    exact ⟨rfl, rfl⟩
  · next hgroup =>
    obtain ⟨d, imm, rfl, rfl⟩ := takeByte_takeWord_instr h
    exact ⟨rm.group_high_iff.mp hgroup, rfl⟩
  · next hgroup =>
    obtain ⟨d, imm, rfl, rfl⟩ := takeWord_takeWord_instr h
    exact ⟨rm.group_low_iff.mp hgroup, rfl⟩
  · next hgroup =>
    obtain rfl := rm.group_esp_iff.mp hgroup
    cases h
    exact ⟨rfl, rfl⟩
  · next hgroup =>
    obtain rfl := rm.group_ebp_iff.mp hgroup
    obtain ⟨d, imm, rfl, rfl⟩ := takeWord_takeWord_instr h
    exact ⟨rfl, rfl⟩
  · next hgroup =>
    obtain ⟨d, imm, rfl, rfl⟩ := takeWord_takeWord_instr h
    exact ⟨rm.group_high_iff.mp hgroup, rfl⟩

/-- A decoded instruction is well-formed, and the bytes are its encoding and the bytes left over. -/
theorem decode_eq_instr {bs rest : List Byte} {i : Instr} (h : decode bs = .instr i rest) :
    i.wf = true ∧ bs = encode i ++ rest := by
  obtain ⟨op, bs, rfl, hk⟩ := takeByte_eq_instr h
  cases hslot : dispatchTable op with
  | empty => rw [hslot] at hk; cases hk
  | movR32Imm32 =>
    rw [hslot] at hk
    obtain ⟨imm, rfl, rfl⟩ := takeWord_instr hk
    rw [encode_movR32, ← (dispatchTable_movR32_iff op).mp hslot]
    exact ⟨wf_movR32 _ _, rfl⟩
  | movRm32Imm32 =>
    rw [hslot] at hk
    obtain ⟨m, bs, rfl, hm⟩ := takeByte_eq_instr hk
    have hbytes := decodeMi_eq_instr hm
    rwa [modrmByte_fields, ← (dispatchTable_movRm32_iff op).mp hslot] at hbytes
  | nearJump =>
    rw [hslot] at hk
    obtain ⟨d, rfl, rfl⟩ := takeWord_instr hk
    obtain rfl := (dispatchTable_nearJump_iff op).mp hslot
    exact ⟨rfl, rfl⟩
  | shortJump =>
    rw [hslot] at hk
    obtain ⟨d, _, rfl, hi⟩ := takeByte_eq_instr hk
    obtain rfl := (dispatchTable_shortJump_iff op).mp hslot
    cases hi
    exact ⟨rfl, rfl⟩

theorem Config.memCapacity_lt_of_valid {c : Config} (h : c.valid = true) : c.memCapacity < 2 ^ 32 := by
  simp only [Config.valid, Bool.and_eq_true, decide_eq_true_eq] at h
  omega

end Sys2Proof

namespace Sys2Proof.Machine

/-- Byte `k` of the window is byte `k` of the instruction at EIP. -/
theorem fieldByte_of_fetchWindow {s : State} {k : Nat} {b : Byte} (hvalid : s.config.valid = true)
    (h : (fetchWindow s)[k]? = some b) : fieldByte s k = b := by
  rw [fetchWindow, fetchBytes_eq_map s _ _ (Config.memCapacity_lt_of_valid hvalid), List.getElem?_map,
    Option.map_eq_some_iff] at h
  obtain ⟨j, hj, hb⟩ := h
  obtain ⟨_, rfl⟩ := List.getElem?_eq_some_iff.mp hj
  rwa [List.getElem_range] at hb

end Sys2Proof.Machine
end

section
/-! ## The register an instruction names, and ESP, which changes only by name (10_state.md R24, R25, 42_mov.md R130 to
R138) -/

namespace Sys2Proof

/-- The register an instruction names as its destination, if it has one. -/
def Instr.destReg (i : Instr) : Option Reg :=
  match i with
  | .movEax _ => some .eax
  | .movEcx _ => some .ecx
  | .movEdx _ => some .edx
  | .movEbx _ => some .ebx
  | .movEsp _ => some .esp
  | .movEbp _ => some .ebp
  | .movEsi _ => some .esi
  | .movEdi _ => some .edi
  | .movRmReg _ rm _ => some rm
  | .jmpRel8 _ | .jmpRel32 _ => none
  | .movMemLow _ _ _ | .movMemHigh _ _ _ => none
  | .movMemDisp8Low _ _ _ _ | .movMemDisp8Ebp _ _ _ | .movMemDisp8High _ _ _ _ => none
  | .movMemDisp32Low _ _ _ _ | .movMemDisp32Ebp _ _ _ | .movMemDisp32High _ _ _ _ => none
  | .movUnmodeledNoDispSib _ | .movUnmodeledNoBase _ | .movUnmodeledDisp8Sib _ | .movUnmodeledDisp32Sib _ => none

/-- Two encodings name ESP (decisions D15 and D3, assumptions 9 and 8). -/
theorem encode_of_destReg_esp {i : Instr} (h : i.destReg = some .esp) :
    (∃ imm, encode i = 0xBC :: bytesOfWord imm) ∨
      (∃ reg imm, encode i = 0xC7 :: modrmByte .direct reg .esp :: bytesOfWord imm) := by
  cases i with
  | movEsp imm => exact .inl ⟨imm, rfl⟩
  | movRmReg reg rm imm => cases h; exact .inr ⟨reg, imm, rfl⟩
  | _ => cases h

theorem modrmByte_direct_esp_fields (reg : BitVec 3) :
    (modrmByte .direct reg .esp).toNat / 64 = 3 ∧ (modrmByte .direct reg .esp).toNat % 8 = 4 := by
  revert reg; decide

end Sys2Proof

namespace Sys2Proof.Machine

theorem readReg_of_movR32 {d r : Reg} {imm : Word} {s t : State} (h : movR32 d imm s = .next t) (hr : d ≠ r) :
    readReg t r = readReg s r := by
  cases h
  exact readReg_writeReg_other s d r imm hr.symm

theorem readReg_of_movRm32 {d : Descriptor} {n : Nat} {r : Reg} {imm : Word} {s t : State}
    (h : movRm32 d n imm s = .next t) (hr : d ≠ .reg r) : readReg t r = readReg s r := by
  rcases movRm32_eq_next h with ⟨q, rfl, rfl⟩ | ⟨ea, -, -, rfl⟩
  · exact readReg_writeReg_other s q r imm fun hrq => hr (congrArg Descriptor.reg hrq.symm)
  · rfl

/-- A completed instruction leaves every register alone but the one it names. -/
theorem readReg_of_exec {i : Instr} {r : Reg} {s t : State} (h : exec i s = .next t) (hr : i.destReg ≠ some r) :
    readReg t r = readReg s r := by
  cases i with
  | movEax _ => exact readReg_of_movR32 h (mt (congrArg some) hr)
  | movEcx _ => exact readReg_of_movR32 h (mt (congrArg some) hr)
  | movEdx _ => exact readReg_of_movR32 h (mt (congrArg some) hr)
  | movEbx _ => exact readReg_of_movR32 h (mt (congrArg some) hr)
  | movEsp _ => exact readReg_of_movR32 h (mt (congrArg some) hr)
  | movEbp _ => exact readReg_of_movR32 h (mt (congrArg some) hr)
  | movEsi _ => exact readReg_of_movR32 h (mt (congrArg some) hr)
  | movEdi _ => exact readReg_of_movR32 h (mt (congrArg some) hr)
  | movRmReg _ rm _ => exact readReg_of_movRm32 (d := .reg rm) (n := 1) h fun hrm => hr (congrArg some (Descriptor.reg.inj hrm))
  | movMemLow _ _ _ => exact readReg_of_movRm32 h nofun
  | movMemHigh _ _ _ => exact readReg_of_movRm32 h nofun
  | movMemDisp8Low _ _ _ _ => exact readReg_of_movRm32 h nofun
  | movMemDisp8Ebp _ _ _ => exact readReg_of_movRm32 h nofun
  | movMemDisp8High _ _ _ _ => exact readReg_of_movRm32 h nofun
  | movMemDisp32Low _ _ _ _ => exact readReg_of_movRm32 h nofun
  | movMemDisp32Ebp _ _ _ => exact readReg_of_movRm32 h nofun
  | movMemDisp32High _ _ _ _ => exact readReg_of_movRm32 h nofun
  | jmpRel8 _ => cases h; rfl
  | jmpRel32 _ => cases h; rfl
  | movUnmodeledNoDispSib _ => cases h; rfl
  | movUnmodeledNoBase _ => cases h; rfl
  | movUnmodeledDisp8Sib _ => cases h; rfl
  | movUnmodeledDisp32Sib _ => cases h; rfl

/-- A step that changes a register ran an instruction that names it, and the window opens with its encoding. -/
theorem step_changes_named_register {s t : State} {r : Reg} (hstep : step s = .next t)
    (hr : readReg t r ≠ readReg s r) :
    ∃ i rest, i.destReg = some r ∧ fetchWindow s = encode i ++ rest := by
  obtain ⟨-, ⟨op, -, rfl⟩ | ⟨i, rest, u, hdecode, hexec, rfl⟩⟩ := step_eq_next hstep
  · exact absurd rfl hr
  · obtain ⟨-, hwindow⟩ := decode_eq_instr hdecode
    have hu : readReg (checkSentinel u) r = readReg u r := congrArg (·.get r) (checkSentinel_regs u)
    have hnamed : i.destReg = some r := by
      by_contra hother
      exact hr (hu.trans (readReg_of_exec hexec hother))
    exact ⟨i, rest, hnamed, hwindow⟩

/-- Settles O43: the instruction that ran names ESP, so the bytes at EIP open with one of the two encodings that do. -/
theorem espChangesOnlyByName : Obligations.EspChangesOnlyByName := by
  intro s t hvalid hstep hesp
  obtain ⟨i, rest, hnamed, hwindow⟩ := step_changes_named_register hstep hesp
  have hfield (k : Nat) (b : Byte) (hb : (encode i ++ rest)[k]? = some b) : fieldByte s k = b :=
    fieldByte_of_fetchWindow hvalid (hwindow ▸ hb)
  rcases encode_of_destReg_esp hnamed with ⟨imm, hencode⟩ | ⟨reg, imm, hencode⟩
  · exact .inl (hfield 0 _ (by rw [hencode]; rfl))
  · obtain ⟨hmod, hrm⟩ := modrmByte_direct_esp_fields reg
    have hmodrm : fieldByte s 1 = modrmByte .direct reg .esp := hfield 1 _ (by rw [hencode]; rfl)
    exact .inr ⟨hfield 0 _ (by rw [hencode]; rfl), by rwa [hmodrm], by rwa [hmodrm]⟩

end Sys2Proof.Machine
end

section
/-! ## Memory accesses and the load: what they answer, what they leave alone, and that a fetch sees a stored word
(20_memory.md R41 to R47, R56) -/

namespace Sys2Proof.Machine

/-! ### Bytes written in a row -/

/-- A change of memory changes no register. -/
theorem regsSame_mem (s : State) (m : Memory) : RegsSame s { s with mem := m } := fun _ => rfl

/-- A change of memory changes no flag, status value or parameter. -/
theorem engineSame_mem (s : State) (m : Memory) : EngineSame s { s with mem := m } := ⟨rfl, rfl, rfl, rfl, rfl, rfl⟩

theorem readByte_writeBytes (s : State) (a k : Nat) (bs : List Byte) (hk : k < bs.length) :
    readByte { s with mem := Memory.writeBytes s.mem a bs } (a + k) = bs[k] :=
  Memory.read_writeBytes_inside bs s.mem a k hk

theorem memSameOutside_writeBytes (s : State) (a : Nat) (bs : List Byte) :
    MemSameOutside s { s with mem := Memory.writeBytes s.mem a bs } a bs.length :=
  Memory.read_writeBytes_outside bs s.mem a

/-! ### Words in memory -/

theorem holdsWord_writeBytes (s : State) (a : Nat) (v : Word) :
    HoldsWord { s with mem := Memory.writeBytes s.mem a (bytesOfWord v) } a v := readByte_store_inside s a v

theorem memRead32_of_holdsWord {s : State} {a v : Word} (hfits : a.toNat + 4 ≤ s.config.memCapacity)
    (hword : HoldsWord s a.toNat v) : memRead32 s a = .ok v := by
  have h0 : readByte s a.toNat = byteOfWord v 0 := hword 0 (by decide)
  have h1 : readByte s (a.toNat + 1) = byteOfWord v 1 := hword 1 (by decide)
  have h2 : readByte s (a.toNat + 2) = byteOfWord v 2 := hword 2 (by decide)
  have h3 : readByte s (a.toNat + 3) = byteOfWord v 3 := hword 3 (by decide)
  rw [memRead32_of_le hfits, h0, h1, h2, h3, wordOfBytes_byteOfWord]

/-- A fetch at a word in memory opens with the word's bytes. -/
theorem fetchWindow_of_holdsWord {s : State} {v : Word} (hvalid : s.config.valid = true)
    (hfits : s.eip.toNat + 4 ≤ s.config.memCapacity) (hword : HoldsWord s s.eip.toNat v) :
    ∃ rest, fetchWindow s = bytesOfWord v ++ rest := by
  obtain ⟨n, hn⟩ : ∃ n, min maxInstrLength (s.config.memCapacity - s.eip.toNat) = 4 + n :=
    Nat.exists_eq_add_of_le (Nat.le_min.mpr ⟨by decide, by omega⟩)
  have hbytes : (List.range 4).map (fun k => readByte s (s.eip.toNat + k)) = bytesOfWord v :=
    List.map_congr_left fun k hk => hword k (List.mem_range.mp hk)
  rw [fetchWindow, fetchBytes_eq_map s _ _ (Config.memCapacity_lt_of_valid hvalid), hn, List.range_add,
    List.map_append, hbytes]
  exact ⟨_, rfl⟩

/-! ### Accesses out of bounds -/

/-- The address the model reports is the lowest of the access that is out of bounds. -/
theorem boundsFault_eq (s : State) (a : Word) : boundsFault s a = .boundsViolation (lowestOutside s a) := by
  unfold boundsFault lowestOutside
  split
  · next h => rw [Nat.max_eq_left h]
  · next h => rw [Nat.max_eq_right (Nat.le_of_not_le h)]

/-! ### The load -/

theorem load_of_le {offset : Nat} {bytes : List Byte} {s : State}
    (h : offset + bytes.length ≤ s.config.memCapacity) :
    load offset bytes s = .next { s with mem := Memory.writeBytes s.mem offset bytes } := if_pos h

theorem load_of_gt {offset : Nat} {bytes : List Byte} {s : State}
    (h : s.config.memCapacity < offset + bytes.length) : load offset bytes s = .fault .imageTooLarge :=
  if_neg (Nat.not_le.mpr h)

/-- Everything a load can answer when it succeeds. -/
theorem load_eq_next {offset : Nat} {bytes : List Byte} {s t : State} (h : load offset bytes s = .next t) :
    offset + bytes.length ≤ s.config.memCapacity ∧
      t = { s with mem := Memory.writeBytes s.mem offset bytes } := by
  by_cases hfits : offset + bytes.length ≤ s.config.memCapacity
  · rw [load_of_le hfits] at h
    cases h
    exact ⟨hfits, rfl⟩
  · rw [load_of_gt (Nat.lt_of_not_le hfits)] at h
    cases h

theorem readByte_resetWith (c : Config) (a : Nat) : readByte (State.resetWith c) a = 0x00 := rfl

/-! ### The statements -/

/-- Settles O12: the value is that of the word's four bytes, and the address reported is the greater of the first byte's
and the capacity, which is the least that is at or above both. -/
theorem wordReadIsLittleEndianAndBoundsChecked : Obligations.WordReadIsLittleEndianAndBoundsChecked := by
  intro s addr
  constructor
  · intro hin
    exact ⟨_, memRead32_of_le hin, wordOfBytes_toNat _ _ _ _⟩
  · intro hout
    exact ⟨max addr.toNat s.config.memCapacity, memRead32_of_gt (Nat.lt_succ_of_le hout), Nat.le_max_left _ _,
      Nat.max_le.mpr ⟨Nat.le_add_right _ 3, hout⟩, Nat.le_max_right _ _, fun _ haddr hcap => Nat.max_le.mpr ⟨haddr, hcap⟩⟩

/-- Settles O13: the store writes the word's four bytes in a row, so memory holds the word, and a read of it answers it. -/
theorem storeThenLoadReturnsTheWord : Obligations.StoreThenLoadReturnsTheWord := by
  intro s addr v
  constructor
  · intro hin
    have hword := holdsWord_writeBytes s addr.toNat v
    exact ⟨_, memWrite32_of_le hin, hword, memRead32_of_holdsWord hin hword, memSameOutside_writeBytes s _ _,
      regsSame_mem s _, rfl, engineSame_mem s _⟩
  · intro hout
    rw [memWrite32_of_gt (Nat.lt_succ_of_le hout), boundsFault_eq]

/-- Settles O14: a load that fits writes the image's bytes in a row and nothing else. -/
theorem loadCopiesTheImageOrFails : Obligations.LoadCopiesTheImageOrFails := by
  intro s offset bytes
  refine ⟨fun hfits => ⟨_, load_of_le hfits, ?_⟩, load_of_gt⟩
  exact ⟨fun k hk => readByte_writeBytes s offset k bytes hk, memSameOutside_writeBytes s offset bytes,
    regsSame_mem s _, rfl, engineSame_mem s _⟩

/-- Settles O49: after the store memory holds the word at `ea`, and setting EIP changes no byte. -/
theorem storeIsSeenByTheNextFetch : Obligations.StoreIsSeenByTheNextFetch := by
  intro s t ea v hvalid hstore
  obtain ⟨hfits, rfl⟩ := memWrite32_eq_ok hstore
  exact fetchWindow_of_holdsWord (v := v) hvalid hfits (holdsWord_writeBytes s ea.toNat v)

/-- Settles O11: the two cases are the two rules of the byte read. -/
theorem byteReadIsBoundsChecked : Obligations.ByteReadIsBoundsChecked :=
  fun _ _ => ⟨memRead8_of_ge, memRead8_of_lt⟩

/-- Settles O54: the load after reset writes the image's bytes over memory that reads 0 everywhere. -/
theorem memoryIsZeroButForTheImage : Obligations.MemoryIsZeroButForTheImage := by
  intro c
  refine ⟨readByte_resetWith c, fun image s hboot => ?_⟩
  obtain ⟨-, rfl⟩ := load_eq_next hboot
  exact ⟨fun k hk => readByte_writeBytes _ _ k image hk, fun a ha =>
    (memSameOutside_writeBytes (State.resetWith c) c.loadOffset.toNat image a ha).trans (readByte_resetWith c a)⟩

end Sys2Proof.Machine
end

section
/-! ## Decoder and encoder (30_encoding.md R71 to R83): each reads back what the other wrote; the dispatch table, the
rows of spec/opcode_table.json and the two answers that are no instruction -/

namespace Sys2Proof

/-! ### From an instruction to its bytes and back -/

/-- The slots of the eight short moves name their register by number (30_encoding.md R72). -/
theorem shortMove_slot (r : Reg) :
    dispatchTable (0xB8 + r.number.zeroExtend 8) = .movR32Imm32 ∧ opcodeReg (0xB8 + r.number.zeroExtend 8) = r := by
  cases r <;> decide

theorem decode_encode_movR32 (r : Reg) (imm : Word) (rest : List Byte) :
    decode (encode (Instr.movR32 r imm) ++ rest) = .instr (Instr.movR32 r imm) rest := by
  obtain ⟨hslot, hreg⟩ := shortMove_slot r
  rw [encode_movR32, List.cons_append]
  simp only [decode, takeByte_cons, hslot, takeWord_bytesOfWord, hreg]

/-- After opcode `0xC7` the decoder goes by the fields of the ModRM byte. -/
theorem decode_modrmByte (mode : AddrMode) (reg : BitVec 3) (rm : Reg) (bs : List Byte) :
    decode (0xC7 :: modrmByte mode reg rm :: bs) = decodeMi mode reg rm bs := by
  have hslot : dispatchTable 0xC7 = .movRm32Imm32 := by decide
  simp only [decode, takeByte_cons, hslot, decodeMovRm32, modOf_modrmByte, regOf_modrmByte, rmOf_modrmByte]

theorem decode_encodeMi (mode : AddrMode) (reg : BitVec 3) (rm : Reg) (disp : List Byte) (imm : Word)
    (rest : List Byte) :
    decode (encodeMi mode reg rm disp imm ++ rest) = decodeMi mode reg rm (disp ++ (bytesOfWord imm ++ rest)) := by
  simp only [encodeMi, List.cons_append, List.append_assoc, decode_modrmByte]

/-- Each row of opcode `0xC7` is read back from its mod field and the group of its base register. -/
theorem decode_encode {i : Instr} (hwf : i.wf = true) (rest : List Byte) : decode (encode i ++ rest) = .instr i rest := by
  cases i with
  | movEax imm => exact decode_encode_movR32 .eax imm rest
  | movEcx imm => exact decode_encode_movR32 .ecx imm rest
  | movEdx imm => exact decode_encode_movR32 .edx imm rest
  | movEbx imm => exact decode_encode_movR32 .ebx imm rest
  | movEsp imm => exact decode_encode_movR32 .esp imm rest
  | movEbp imm => exact decode_encode_movR32 .ebp imm rest
  | movEsi imm => exact decode_encode_movR32 .esi imm rest
  | movEdi imm => exact decode_encode_movR32 .edi imm rest
  | jmpRel8 d => rfl
  | jmpRel32 d => exact takeWord_bytesOfWord d rest fun w r => .instr (.jmpRel32 w) r
  | movRmReg reg rm imm => simp [encode, decode_encodeMi, decodeMi]
  | movMemLow reg rm imm => simp [encode, decode_encodeMi, decodeMi, rm.group_low_iff.mpr hwf]
  | movMemHigh reg rm imm => simp [encode, decode_encodeMi, decodeMi, rm.group_high_iff.mpr hwf]
  | movMemDisp8Low reg rm d imm => simp [encode, decode_encodeMi, decodeMi, rm.group_low_iff.mpr hwf]
  | movMemDisp8Ebp reg d imm => simp [encode, decode_encodeMi, decodeMi, Reg.group]
  | movMemDisp8High reg rm d imm => simp [encode, decode_encodeMi, decodeMi, rm.group_high_iff.mpr hwf]
  | movMemDisp32Low reg rm d imm => simp [encode, decode_encodeMi, decodeMi, rm.group_low_iff.mpr hwf]
  | movMemDisp32Ebp reg d imm => simp [encode, decode_encodeMi, decodeMi, Reg.group]
  | movMemDisp32High reg rm d imm => simp [encode, decode_encodeMi, decodeMi, rm.group_high_iff.mpr hwf]
  | movUnmodeledNoDispSib reg => exact decode_modrmByte .noDisp reg .esp rest
  | movUnmodeledNoBase reg => exact decode_modrmByte .noDisp reg .ebp rest
  | movUnmodeledDisp8Sib reg => exact decode_modrmByte .disp8 reg .esp rest
  | movUnmodeledDisp32Sib reg => exact decode_modrmByte .disp32 reg .esp rest

/-- Settles O2: one equation of the decoder for each row's encoding. -/
theorem decodeOfEncodeIsTheInstruction : Obligations.DecodeOfEncodeIsTheInstruction :=
  fun _ rest hwf => decode_encode hwf rest

/-- Settles O3: every branch of the decoder answers the instruction whose fields it read. -/
theorem decodedBytesAreTheEncoding : Obligations.DecodedBytesAreTheEncoding :=
  fun _ _ _ hdecode => decode_eq_instr hdecode

/-- Settles O1: each word is the encoding of its instruction, the third last with one byte after it. -/
theorem sampleWordsDecodeToTheirInstructions : Obligations.SampleWordsDecodeToTheirInstructions :=
  ⟨decode_encode (i := .movEax 0x12345678) rfl [],
    decode_encode (i := .movEdi 0xDEADBEEF) rfl [],
    decode_encode (i := .movRmReg 0 .ebp 1) rfl [],
    decode_encode (i := .movMemLow 0 .ebx 0xDEADBEEF) rfl [],
    decode_encode (i := .movMemDisp8Low 0 .ebx 4 1) rfl [],
    decode_encode (i := .movMemDisp32High 0 .esi 0x1000 0x11223344) rfl [],
    decode_encode (i := .movUnmodeledNoDispSib 0) rfl [0x24],
    decode_encode (i := .jmpRel8 0xFE) rfl [],
    decode_encode (i := .jmpRel32 0x0B) rfl []⟩

/-! ### The dispatch table and the unbound answer -/

/-- The empty slots are those of the bytes that are not bound (30_encoding.md R77). -/
theorem dispatchTable_empty_iff (op : Byte) : dispatchTable op = .empty ↔ op ∉ Machine.boundOpcodes := by
  revert op; decide

/-- The slots `0xB8` to `0xBF` belong to the short moves, the register being the one of number `op - 0xB8`. -/
theorem dispatchTable_of_shortMove_range (op : Byte) :
    0xB8 ≤ op.toNat ∧ op.toNat ≤ 0xBF →
      dispatchTable op = .movR32Imm32 ∧ (op.toNat - 0xB8, opcodeReg op) ∈ Machine.numberedRegs := by
  revert op; decide

theorem boundSlots_length :
    ((List.range 256).filter fun n => !(dispatchTable (BitVec.ofNat 8 n) == .empty)).length = 11 := by decide

theorem emptySlots_length :
    ((List.range 256).filter fun n => dispatchTable (BitVec.ofNat 8 n) == .empty).length = 245 := by
  have hsplit := List.length_eq_length_filter_add (l := List.range 256)
    fun n => dispatchTable (BitVec.ofNat 8 n) == .empty
  rw [boundSlots_length, List.length_range] at hsplit
  omega

/-- Settles O4: the slots one family at a time, and the count of the empty ones from that of the eleven bound. -/
theorem dispatchTableIsTheOpcodeMap : Obligations.DispatchTableIsTheOpcodeMap :=
  ⟨fun op => ⟨dispatchTable_of_shortMove_range op, (dispatchTable_movRm32_iff op).mpr, (dispatchTable_nearJump_iff op).mpr,
    (dispatchTable_shortJump_iff op).mpr, (dispatchTable_empty_iff op).mpr⟩, emptySlots_length⟩

/-- Settles O5: only an empty slot gives the unbound answer, and it always does. -/
theorem decoderFindsExactlyTheUnboundOpcodes : Obligations.DecoderFindsExactlyTheUnboundOpcodes := by
  intro op op' rest
  rw [← dispatchTable_empty_iff]
  constructor
  · intro hdecode
    obtain ⟨⟨_, hbytes⟩, hempty⟩ := decode_eq_unbound hdecode
    obtain rfl := List.head_eq_of_cons_eq hbytes
    exact ⟨rfl, hempty⟩
  · rintro ⟨rfl, hempty⟩
    exact decode_of_empty rest hempty

/-! ### The truncated answer -/

/-- Eight bytes after the ModRM byte are enough for every row of opcode `0xC7` (30_encoding.md R70). -/
theorem decodeMi_of_length (mode : AddrMode) (reg : BitVec 3) (rm : Reg) {bs : List Byte} (hlen : 8 ≤ bs.length) :
    ∃ i rest, decodeMi mode reg rm bs = .instr i rest := by
  match bs, hlen with
  | _ :: _ :: _ :: _ :: _ :: _ :: _ :: _ :: _, _ => unfold decodeMi; split <;> exact ⟨_, _, rfl⟩

/-- Nine bytes after a bound opcode are enough for every instruction (30_encoding.md R70). -/
theorem decode_of_bound {op : Byte} {bs : List Byte} (hbound : dispatchTable op ≠ .empty) (hlen : 9 ≤ bs.length) :
    ∃ i rest, decode (op :: bs) = .instr i rest := by
  match bs, hlen with
  | m :: b0 :: b1 :: b2 :: bs, hlen =>
    simp only [decode, takeByte_cons]
    cases hslot : dispatchTable op with
    | empty => exact absurd hslot hbound
    | movR32Imm32 => exact ⟨_, _, rfl⟩
    | movRm32Imm32 => exact decodeMi_of_length _ _ _ (Nat.le_of_succ_le_succ hlen)
    | nearJump => exact ⟨_, _, rfl⟩
    | shortJump => exact ⟨_, _, rfl⟩

/-- Truncated bytes followed by nine more are decoded, and the instruction's encoding ends among the nine: had it ended
before, the bytes would have been decoded without them. -/
theorem proper_beginning_of_truncated {bs : List Byte} (h : decode bs = .truncated) :
    ∃ (i : Instr) (more : List Byte), i.wf = true ∧ more ≠ [] ∧ encode i = bs ++ more := by
  cases bs with
  | nil => exact ⟨.jmpRel8 0, _, rfl, List.cons_ne_nil _ _, rfl⟩
  | cons op bs =>
    have hbound : dispatchTable op ≠ .empty := fun hempty => by cases (decode_of_empty bs hempty).symm.trans h
    obtain ⟨i, rest, hdecode⟩ := decode_of_bound (bs := bs ++ List.replicate 9 0) hbound (by simp)
    obtain ⟨hwf, hbytes⟩ := decode_eq_instr hdecode
    obtain ⟨more, hencode, -⟩ | ⟨rest', hrest, -⟩ := List.append_eq_append_iff.mp ((List.cons_append ..).trans hbytes)
    · refine ⟨i, more, hwf, ?_, hencode⟩
      rintro rfl
      have hwhole := decode_encode hwf []
      rw [hencode, List.append_nil, List.append_nil, h] at hwhole
      cases hwhole
    · rw [hrest, decode_encode hwf] at h
      cases h

/-- Settles O8: short of bytes the decoder can be given more, and bytes it could answer are no proper beginning. -/
theorem truncatedBytesAreProperBeginnings : Obligations.TruncatedBytesAreProperBeginnings := by
  intro bs
  refine ⟨proper_beginning_of_truncated, ?_⟩
  rintro ⟨i, more, hwf, hmore, hencode⟩
  have hwhole : decode (bs ++ more) = .instr i [] := by
    rw [← hencode, ← List.append_nil (encode i), decode_encode hwf]
  cases hdecode : decode bs with
  | truncated => rfl
  | unboundOpcode op =>
    obtain ⟨⟨rest, rfl⟩, hempty⟩ := decode_eq_unbound hdecode
    cases (decode_of_empty (rest ++ more) hempty).symm.trans hwhole
  | instr j rest =>
    obtain ⟨hwfj, rfl⟩ := decode_eq_instr hdecode
    rw [List.append_assoc, decode_encode hwfj] at hwhole
    injection hwhole with _ hrest
    exact absurd (List.append_eq_nil_iff.mp hrest).2 hmore

/-! ### The ModRM bytes without a length -/

/-- The four patterns in terms of the fields (30_encoding.md R80, 41_modrm.md R118). -/
theorem mem_unmodeledPatterns_iff (m : Byte) :
    m &&& 0xC7 ∈ Machine.unmodeledPatterns ↔
      modOf m ≠ .direct ∧ rmOf m = .esp ∨ modOf m = .noDisp ∧ rmOf m = .ebp := by
  revert m; decide

/-- An instruction without a length is `C7 m` with `m` in one of the four patterns, and nothing more. -/
theorem encode_of_row_length_none {i : Instr} (h : i.row.length = none) :
    ∃ m, encode i = [0xC7, m] ∧ m &&& 0xC7 ∈ Machine.unmodeledPatterns := by
  cases i with
  | movUnmodeledNoDispSib reg => exact ⟨_, rfl, (mem_unmodeledPatterns_iff _).mpr (.inl (by simp))⟩
  | movUnmodeledNoBase reg => exact ⟨_, rfl, (mem_unmodeledPatterns_iff _).mpr (.inr (by simp))⟩
  | movUnmodeledDisp8Sib reg => exact ⟨_, rfl, (mem_unmodeledPatterns_iff _).mpr (.inl (by simp))⟩
  | movUnmodeledDisp32Sib reg => exact ⟨_, rfl, (mem_unmodeledPatterns_iff _).mpr (.inl (by simp))⟩
  | _ => cases h

/-- A ModRM byte in one of the four patterns ends its instruction. -/
theorem decode_of_mem_unmodeledPatterns {m : Byte} (h : m &&& 0xC7 ∈ Machine.unmodeledPatterns) (bs : List Byte) :
    ∃ i, decode (0xC7 :: m :: bs) = .instr i bs ∧ i.row.length = none := by
  rw [← modrmByte_fields m, decode_modrmByte]
  rcases (mem_unmodeledPatterns_iff m).mp h with ⟨hmode, hrm⟩ | ⟨hmode, hrm⟩
  · rw [hrm]
    cases hmod : modOf m with
    | noDisp => exact ⟨_, rfl, rfl⟩
    | disp8 => exact ⟨_, rfl, rfl⟩
    | disp32 => exact ⟨_, rfl, rfl⟩
    | direct => exact absurd hmod hmode
  · rw [hmode, hrm]
    exact ⟨_, rfl, rfl⟩

/-- Settles O7: the patterns by the fields of the ModRM byte, and the instructions without a length by their encodings. -/
theorem unmodeledModrmBytesAreTheFourGroups : Obligations.UnmodeledModrmBytesAreTheFourGroups := by
  refine ⟨fun m bs => ⟨fun hm => decode_of_mem_unmodeledPatterns hm bs, fun i rest hdecode hlength => ?_⟩,
    by decide⟩
  obtain ⟨-, hbytes⟩ := decode_eq_instr hdecode
  obtain ⟨m', hencode, hm'⟩ := encode_of_row_length_none hlength
  rw [hencode] at hbytes
  injection hbytes with _ hbytes
  injection hbytes with hm _
  rwa [hm]

/-! ### The table rows -/

theorem row_mem_opcodeTable (i : Instr) : i.row ∈ opcodeTable := by
  cases i <;> simp [opcodeTable, Instr.row]

/-- The first two bytes of a well-formed instruction's encoding select its row (30_encoding.md R83). -/
theorem encode_selects_row (i : Instr) : Laws.EncodingRow.Statement i := by
  cases i with
  | movEax imm => exact Laws.EncodingRow.movEax imm
  | movEcx imm => exact Laws.EncodingRow.movEcx imm
  | movEdx imm => exact Laws.EncodingRow.movEdx imm
  | movEbx imm => exact Laws.EncodingRow.movEbx imm
  | movEsp imm => exact Laws.EncodingRow.movEsp imm
  | movEbp imm => exact Laws.EncodingRow.movEbp imm
  | movEsi imm => exact Laws.EncodingRow.movEsi imm
  | movEdi imm => exact Laws.EncodingRow.movEdi imm
  | jmpRel8 d => exact Laws.EncodingRow.jmpRel8 d
  | jmpRel32 d => exact Laws.EncodingRow.jmpRel32 d
  | movRmReg reg rm imm => exact Laws.EncodingRow.movRmReg reg rm imm
  | movMemLow reg rm imm => exact Laws.EncodingRow.movMemLow reg rm imm
  | movMemHigh reg rm imm => exact Laws.EncodingRow.movMemHigh reg rm imm
  | movMemDisp8Low reg rm d imm => exact Laws.EncodingRow.movMemDisp8Low reg rm d imm
  | movMemDisp8Ebp reg d imm => exact Laws.EncodingRow.movMemDisp8Ebp reg d imm
  | movMemDisp8High reg rm d imm => exact Laws.EncodingRow.movMemDisp8High reg rm d imm
  | movMemDisp32Low reg rm d imm => exact Laws.EncodingRow.movMemDisp32Low reg rm d imm
  | movMemDisp32Ebp reg d imm => exact Laws.EncodingRow.movMemDisp32Ebp reg d imm
  | movMemDisp32High reg rm d imm => exact Laws.EncodingRow.movMemDisp32High reg rm d imm
  | movUnmodeledNoDispSib reg => exact Laws.EncodingRow.movUnmodeledNoDispSib reg
  | movUnmodeledNoBase reg => exact Laws.EncodingRow.movUnmodeledNoBase reg
  | movUnmodeledDisp8Sib reg => exact Laws.EncodingRow.movUnmodeledDisp8Sib reg
  | movUnmodeledDisp32Sib reg => exact Laws.EncodingRow.movUnmodeledDisp32Sib reg

/-- A decoded instruction's first two bytes select its row. -/
theorem selects_row_of_decode {b0 b1 : Byte} {more rest : List Byte} {i : Instr}
    (h : decode (b0 :: b1 :: more) = .instr i rest) : i.row.selects b0 b1 = true := by
  obtain ⟨hwf, hbytes⟩ := decode_eq_instr h
  obtain ⟨_, _, _, hencode, hselects⟩ := encode_selects_row i hwf
  rw [hencode] at hbytes
  injection hbytes with h0 hbytes
  injection hbytes with h1 _
  rwa [h0, h1]

theorem TableRow.selects_iff (r : TableRow) (b0 b1 : Byte) :
    r.selects b0 b1 = true ↔ (b1 ++ b0 : BitVec 16) &&& r.mask = r.pattern := by
  simp [TableRow.selects]

/-- Two rows that select the same bytes agree where both masks look. -/
theorem TableRow.patterns_agree {r q : TableRow} {b0 b1 : Byte} (hr : r.selects b0 b1 = true)
    (hq : q.selects b0 b1 = true) : r.pattern &&& q.mask = q.pattern &&& r.mask := by
  rw [← (r.selects_iff b0 b1).mp hr, ← (q.selects_iff b0 b1).mp hq, BitVec.and_assoc, BitVec.and_assoc,
    BitVec.and_comm r.mask]

/-- Any two rows differ in a bit both masks look at. -/
theorem opcodeTable_pairwise_ne :
    opcodeTable.Pairwise fun r q => r.pattern &&& q.mask ≠ q.pattern &&& r.mask := by
  decide

/-- Every row looks at all of byte 0, which it wants to be a bound opcode. -/
theorem opcodeTable_byte0 :
    ∀ r ∈ opcodeTable, r.mask.extractLsb' 0 8 = 0xFF ∧ dispatchTable (r.pattern.extractLsb' 0 8) ≠ .empty := by
  decide

/-- Bytes that select a row open with a bound opcode. -/
theorem bound_of_selects {r : TableRow} {b0 b1 : Byte} (hr : r ∈ opcodeTable) (h : r.selects b0 b1 = true) :
    dispatchTable b0 ≠ .empty := by
  obtain ⟨hmask, hbound⟩ := opcodeTable_byte0 r hr
  have hb0 : r.pattern.extractLsb' 0 8 = b0 := by
    rw [← (r.selects_iff b0 b1).mp h, BitVec.extractLsb'_and, hmask, BitVec.extractLsb'_append_eq_right]
    exact BitVec.and_allOnes
  rwa [hb0] at hbound

/-- Bytes that open with a bound opcode select a row: that of the instruction they begin. -/
theorem selects_of_bound {b0 : Byte} (b1 : Byte) (h : dispatchTable b0 ≠ .empty) :
    ∃ r ∈ opcodeTable, r.selects b0 b1 = true := by
  obtain ⟨i, rest, hdecode⟩ := decode_of_bound (bs := b1 :: List.replicate 8 0) h (by simp)
  exact ⟨i.row, row_mem_opcodeTable i, selects_row_of_decode hdecode⟩

/-- Settles O6: disjoint by a bit both masks look at, selected by the encoding, and byte 0 says whether a row is. -/
theorem tableRowsAreDisjointAndSelected : Obligations.TableRowsAreDisjointAndSelected := by
  refine ⟨rfl, opcodeTable_pairwise_ne.imp fun hne b0 b1 ⟨hr, hq⟩ => hne (TableRow.patterns_agree hr hq),
    fun b0 b1 more rest i hdecode => ⟨row_mem_opcodeTable i, selects_row_of_decode hdecode⟩, fun b0 b1 => ⟨?_, ?_⟩⟩
  · intro hnone
    by_contra hbound
    obtain ⟨r, hr, hselects⟩ := selects_of_bound b1 hbound
    exact absurd hselects (Bool.eq_false_iff.mp (hnone r hr))
  · intro hempty r hr
    exact Bool.eq_false_iff.mpr fun hselects => bound_of_selects hr hselects hempty

end Sys2Proof
end

section
/-! ## The step from the decoded bytes; the sentinel test (40_fetch_dispatch_engine.md R99, R100, 60_exceptions.md R173) -/

namespace Sys2Proof.Machine

theorem step_of_decode {s : State} {i : Instr} {rest : List Byte} (hrun : s.run = .running)
    (hdecode : decode (fetchWindow s) = .instr i rest) : step s = afterHandler (exec i s) := by
  rw [step_running hrun, hdecode]
  rfl

/-- Settles O21: the outcome of the handler passes through `afterHandler`, which tests the sentinel on a next state. -/
theorem stepRunsTheDecodedInstruction : Obligations.StepRunsTheDecodedInstruction := by
  intro s i rest hrun hdecode
  rw [step_of_decode hrun hdecode]
  exact ⟨fun _ hexec => congrArg afterHandler hexec, fun _ hexec => congrArg afterHandler hexec⟩

/-- Settles O33: the three cases of the sentinel test on the state the handler left. -/
theorem sentinelIsTestedAfterTheHandler : Obligations.SentinelIsTestedAfterTheHandler := by
  intro s t i rest hrun hdecode hexec
  have hstep : step s = .next (checkSentinel t) := (stepRunsTheDecodedInstruction s i rest hrun hdecode).1 t hexec
  rw [hstep]
  exact ⟨fun htrun heip => congrArg _ (checkSentinel_of_zero htrun heip),
    fun _ heip => congrArg _ (checkSentinel_of_ne heip), fun hstopped => congrArg _ (checkSentinel_of_stopped hstopped)⟩

/-! ### An encoding in memory at EIP -/

/-- Bytes held in memory from EIP on, in bounds and no more than the longest instruction, open the window. -/
theorem fetchWindow_of_holds {s : State} {bs : List Byte} (hvalid : s.config.valid = true)
    (hlen : bs.length ≤ maxInstrLength) (hfits : s.eip.toNat + bs.length ≤ s.config.memCapacity)
    (hbytes : ∀ k (h : k < bs.length), readByte s (s.eip.toNat + k) = bs[k]) :
    ∃ rest, fetchWindow s = bs ++ rest := by
  obtain ⟨n, hn⟩ : ∃ n, min maxInstrLength (s.config.memCapacity - s.eip.toNat) = bs.length + n :=
    Nat.exists_eq_add_of_le (Nat.le_min.mpr ⟨hlen, by omega⟩)
  have hmap : (List.range bs.length).map (fun k => readByte s (s.eip.toNat + k)) = bs :=
    List.ext_getElem (by simp) fun k _ hk => by simpa using hbytes k hk
  rw [fetchWindow, fetchBytes_eq_map s _ _ (Config.memCapacity_lt_of_valid hvalid), hn, List.range_add,
    List.map_append, hmap]
  exact ⟨_, rfl⟩

/-- No encoding is longer than the window (30_encoding.md R70). -/
theorem encode_length_le (i : Instr) : (encode i).length ≤ maxInstrLength := by
  cases i <;> exact Nat.le_of_ble_eq_true rfl

/-- Settles O22: the encoding opens the window, and the decoder reads the instruction back from it. -/
theorem encodingAtEipIsExecuted : Obligations.EncodingAtEipIsExecuted := by
  intro s i hvalid hrun hwf hfits hbytes
  obtain ⟨rest, hwindow⟩ := fetchWindow_of_holds hvalid (encode_length_le i) hfits hbytes
  exact step_of_decode hrun (by rw [hwindow, decode_encode hwf])

/-! ### The jump to itself -/

/-- `EB FE` moves EIP by 2 - 2, so only the sentinel test can change the state (43_jmp.md R150). -/
theorem step_of_jumpToItself {s : State} (hat : AtOpcode s 0xEB) (hfits : s.eip.toNat + 1 < s.config.memCapacity)
    (hdisp : fieldByte s 1 = 0xFE) : step s = .next (checkSentinel s) := by
  obtain ⟨hvalid, hrun, -, hop⟩ := hat
  have hbytes : ∀ k (h : k < (encode (.jmpRel8 0xFE)).length),
      readByte s (s.eip.toNat + k) = (encode (.jmpRel8 0xFE))[k]
    | 0, _ => hop
    | 1, _ => hdisp
  have hsame : s.eip + sext8 0xFE + 2 = s.eip := by
    rw [BitVec.add_assoc, show sext8 0xFE + 2 = 0 by decide, add_zero]
  rw [encodingAtEipIsExecuted s (.jmpRel8 0xFE) hvalid hrun rfl hfits hbytes]
  simp only [exec, execJmpRel8, hsame]
  rfl

theorem turn_of_next {s t : State} (hrun : s.run = .running) (h : step s = .next t) : turn s = t := by
  simp only [turn, hrun, h]

theorem runLoop_of_turn_eq {s : State} (h : turn s = s) (n : Nat) : runLoop n s = s := by
  induction n with
  | zero => rfl
  | succ n ih => rw [runLoop, h, ih]

/-- Settles O50: away from 0 a turn is the identity, so any number of turns is; at 0 the sentinel halts the first. -/
theorem jumpToItselfRunsForever : Obligations.JumpToItselfRunsForever := by
  intro s hat hfits hdisp
  have ⟨_, hrun, _, _⟩ := hat
  have hturn : turn s = checkSentinel s := turn_of_next hrun (step_of_jumpToItself hat hfits hdisp)
  constructor
  · intro heip
    have hloop := runLoop_of_turn_eq (hturn.trans (checkSentinel_of_ne heip))
    exact ⟨fun n => (congrArg State.run (hloop n)).trans hrun, hloop⟩
  · intro heip
    have hhalt : turn s = halt .endOfProgram .none s := hturn.trans (checkSentinel_of_zero hrun heip)
    exact ⟨⟨1, congrArg State.run hhalt⟩, congrArg State.run hhalt, congrArg State.haltCause hhalt⟩

/-! ### The end of the program -/

theorem eip_of_movRm32 {d : Descriptor} {n : Nat} {imm : Word} {s t : State} (h : movRm32 d n imm s = .next t) :
    t.eip = s.eip + BitVec.ofNat 32 (1 + n + 4) := by
  rcases movRm32_eq_next h with ⟨r, -, rfl⟩ | ⟨ea, -, -, rfl⟩ <;> rfl

/-- An instruction that is no jump and leaves the core running moves EIP past its encoding (30_encoding.md R71). -/
theorem eip_of_exec {i : Instr} {s t : State} (h : exec i s = .next t) (hrun : t.run = .running) :
    (∃ d, i = .jmpRel8 d) ∨ (∃ d, i = .jmpRel32 d) ∨ t.eip = s.eip + BitVec.ofNat 32 (encode i).length := by
  cases i with
  | jmpRel8 d => exact .inl ⟨d, rfl⟩
  | jmpRel32 d => exact .inr (.inl ⟨d, rfl⟩)
  | movEax _ => cases h; exact .inr (.inr rfl)
  | movEcx _ => cases h; exact .inr (.inr rfl)
  | movEdx _ => cases h; exact .inr (.inr rfl)
  | movEbx _ => cases h; exact .inr (.inr rfl)
  | movEsp _ => cases h; exact .inr (.inr rfl)
  | movEbp _ => cases h; exact .inr (.inr rfl)
  | movEsi _ => cases h; exact .inr (.inr rfl)
  | movEdi _ => cases h; exact .inr (.inr rfl)
  | movRmReg _ rm _ => exact .inr (.inr (eip_of_movRm32 (d := .reg rm) (n := 1) h))
  | movMemLow _ _ _ => exact .inr (.inr (eip_of_movRm32 h))
  | movMemHigh _ _ _ => exact .inr (.inr (eip_of_movRm32 h))
  | movMemDisp8Low _ _ _ _ => exact .inr (.inr (eip_of_movRm32 h))
  | movMemDisp8Ebp _ _ _ => exact .inr (.inr (eip_of_movRm32 h))
  | movMemDisp8High _ _ _ _ => exact .inr (.inr (eip_of_movRm32 h))
  | movMemDisp32Low _ _ _ _ => exact .inr (.inr (eip_of_movRm32 h))
  | movMemDisp32Ebp _ _ _ => exact .inr (.inr (eip_of_movRm32 h))
  | movMemDisp32High _ _ _ _ => exact .inr (.inr (eip_of_movRm32 h))
  | movUnmodeledNoDispSib _ => cases h; cases hrun
  | movUnmodeledNoBase _ => cases h; cases hrun
  | movUnmodeledDisp8Sib _ => cases h; cases hrun
  | movUnmodeledDisp32Sib _ => cases h; cases hrun

theorem ExecEffect.haltCause {s t : State} (heffect : ExecEffect s t) :
    t.haltCause = s.haltCause ∨ t.haltCause = .unimplementedModrm := by
  rcases heffect with ⟨r, v, e, rfl⟩ | ⟨ea, v, e, -, rfl⟩ | ⟨e, rfl⟩ | ⟨m, -, rfl⟩
  · exact .inl rfl
  · exact .inl rfl
  · exact .inl rfl
  · exact .inr rfl

/-- A step that newly ends the program ran its instruction to EIP 0, and nothing else halted it. -/
theorem step_endOfProgram {s t : State} (hstep : step s = .next t) (hnew : s.haltCause ≠ .endOfProgram)
    (hend : t.haltCause = .endOfProgram) :
    ∃ i rest u, decode (fetchWindow s) = .instr i rest ∧ exec i s = .next u ∧ u.run = .running ∧ u.eip = 0 := by
  obtain ⟨-, ⟨op, -, rfl⟩ | ⟨i, rest, u, hdecode, hexec, rfl⟩⟩ := step_eq_next hstep
  · cases hend
  · rcases checkSentinel_cases u with hsame | ⟨hrun, heip, -⟩
    · rw [hsame] at hend
      rcases (exec_eq_next hexec).haltCause with hkept | hmodrm
      · exact absurd (hkept.symm.trans hend) hnew
      · cases hmodrm.symm.trans hend
    · exact ⟨i, rest, u, hdecode, hexec, hrun, heip⟩

theorem toNat_add_ofNat {a : Word} {k : Nat} (h : a.toNat + k < 2 ^ 32) :
    (a + BitVec.ofNat 32 k).toNat = a.toNat + k := by
  rw [BitVec.toNat_add, BitVec.toNat_ofNat, Nat.add_mod_mod, Nat.mod_eq_of_lt h]

theorem fetchWindow_length {s : State} (hvalid : s.config.valid = true) :
    (fetchWindow s).length = min maxInstrLength (s.config.memCapacity - s.eip.toNat) := by
  rw [fetchWindow, fetchBytes_eq_map s _ _ (Config.memCapacity_lt_of_valid hvalid), List.length_map, List.length_range]

theorem encode_length_pos (i : Instr) : 0 < (encode i).length := by
  cases i <;> exact Nat.zero_lt_succ _

/-- The address just after an instruction that was fetched in bounds is not 0 (00_scope.md R6). -/
theorem eip_add_length_ne_zero {s : State} {i : Instr} {rest : List Byte} (hvalid : s.config.valid = true)
    (hwindow : fetchWindow s = encode i ++ rest) : s.eip + BitVec.ofNat 32 (encode i).length ≠ 0 := by
  have hcap := Config.memCapacity_lt_of_valid hvalid
  have hpos := encode_length_pos i
  have hlen := fetchWindow_length hvalid
  rw [hwindow, List.length_append] at hlen
  have hsum := toNat_add_ofNat (a := s.eip) (k := (encode i).length) (by omega)
  intro hzero
  have hzeroNat : (s.eip + BitVec.ofNat 32 (encode i).length).toNat = 0 := congrArg BitVec.toNat hzero
  omega

/-- Settles O44: the instruction that ran is a jump, for any other would have left EIP after itself. -/
theorem onlyJumpsEndTheProgram : Obligations.OnlyJumpsEndTheProgram := by
  intro s t hvalid hnew hstep hend
  obtain ⟨i, rest, u, hdecode, hexec, hrun, heip⟩ := step_endOfProgram hstep hnew hend
  obtain ⟨-, hwindow⟩ := decode_eq_instr hdecode
  rcases eip_of_exec hexec hrun with ⟨d, rfl⟩ | ⟨d, rfl⟩ | hafter
  · exact .inl (fieldByte_of_fetchWindow hvalid (by rw [hwindow]; rfl))
  · exact .inr (fieldByte_of_fetchWindow hvalid (by rw [hwindow]; rfl))
  · exact absurd (hafter.symm.trans heip) (eip_add_length_ne_zero hvalid hwindow)

end Sys2Proof.Machine
end

section
/-! ## What the core shows: the trace, which has no influence, the report, and the signed fetches
(40_fetch_dispatch_engine.md R91, R93, R102, R103) -/

namespace Sys2Proof.Machine

/-! ### The signed fetches -/

theorem toInt_sext8 (b : Byte) : (sext8 b).toInt = b.toInt := BitVec.toInt_signExtend_of_le (by decide)

/-- A word added as a signed number adds as its bit pattern (R93). -/
theorem toNat_add_eq_toInt (a w : Word) : ((a + w).toNat : Int) = (a.toNat + w.toInt) % 2 ^ 32 := by
  have hw : w.toInt % 2 ^ 32 = (w.toNat : Int) % 2 ^ 32 := by
    rw [BitVec.toInt_eq_toNat_bmod]
    exact Int.bmod_emod
  rw [BitVec.toNat_add, Int.natCast_mod, Int.natCast_add, Int.add_emod _ w.toInt, hw, ← Int.add_emod]
  rfl

/-- Settles O55: `sign_code8` is `code8` and then `sext8`, which keeps the value; `sign_code32` is `code32`. -/
theorem signedFetchesReadTheSameBytes : Obligations.SignedFetchesReadTheSameBytes := by
  intro s k
  exact ⟨fun b hb => ⟨sext8 b, congrArg (Except.map sext8) hb, rfl, toInt_sext8 b⟩,
    fun f hf => congrArg (Except.map sext8) hf, fun w hw => ⟨hw, fun a => toNat_add_eq_toInt a w⟩, fun f hf => hf⟩

/-! ### The report -/

theorem report_of_not_halted {s : State} (h : s.run ≠ .halted) : report s = none := by
  unfold report
  cases hrun : s.run with
  | running => rfl
  | halted => exact absurd hrun h
  | fatal => rfl

theorem report_of_halted {s : State} (h : s.run = .halted) :
    report s = some ⟨s.haltCause, noticeOf s, reportOrder.map fun r => (r, readReg s r), s.eip⟩ := by
  simp only [report, h]

/-- Settles O51: the report of a halted core, field by field; the notice goes by the cause. -/
theorem reportShowsTheHaltedState : Obligations.ReportShowsTheHaltedState := by
  refine ⟨fun s h => report_of_not_halted h, fun s h => ⟨_, report_of_halted h, rfl, rfl, rfl, ?_, ?_, ?_⟩,
    rfl, rfl, rfl, rfl⟩ <;>
  · intro hcause
    simp only [noticeOf, hcause]

/-! ### The trace pair of a step -/

theorem code8_zero (s : State) : code8 s 0 = memRead8 s s.eip := congrArg (memRead8 s) (BitVec.add_zero s.eip)

theorem traceOut_of_fetch {s : State} (htrace : s.config.traceEnable = true) (hrun : s.run = .running)
    (hin : s.eip.toNat < s.config.memCapacity) : traceOut s = some (s.eip, readByte s s.eip.toNat) := by
  simp only [traceOut, htrace, hrun, and_self, if_true, code8_zero, memRead8_of_lt hin]

theorem traceOut_of_clear {s : State} (h : s.config.traceEnable = false) : traceOut s = none := by
  simp [traceOut, h]

theorem traceOut_of_eip_ge {s : State} (h : s.config.memCapacity ≤ s.eip.toNat) : traceOut s = none := by
  simp [traceOut, code8_zero, memRead8_of_ge h]

/-! ### A core with TRACE_ENABLE set the other way -/

/-- The core with another TRACE_ENABLE. -/
def withTrace (b : Bool) (s : State) : State := { s with config := { s.config with traceEnable := b } }

/-- An outcome with the function applied to its next state, if it has one. -/
def mapNext (f : State → State) (o : Host.Outcome State Fault Refusal) : Host.Outcome State Fault Refusal :=
  match o with
  | .next t => .next (f t)
  | .fault r => .fault r
  | .refused r => .refused r

@[simp] theorem memRead8_withTrace (b : Bool) (s : State) (a : Word) : memRead8 (withTrace b s) a = memRead8 s a := rfl

theorem fetchBytes_withTrace (b : Bool) (s : State) (n : Nat) (a : Word) :
    fetchBytes (withTrace b s) n a = fetchBytes s n a := by
  induction n generalizing a with
  | zero => rfl
  | succ n ih => simp only [fetchBytes, memRead8_withTrace, ih]

theorem fetchWindow_withTrace (b : Bool) (s : State) : fetchWindow (withTrace b s) = fetchWindow s :=
  fetchBytes_withTrace b s maxInstrLength s.eip

theorem fetchFault_withTrace (b : Bool) (s : State) : fetchFault (withTrace b s) = fetchFault s := by
  simp only [fetchFault, fetchWindow_withTrace]
  rfl

theorem checkSentinel_withTrace (b : Bool) (s : State) :
    checkSentinel (withTrace b s) = withTrace b (checkSentinel s) :=
  (apply_ite (withTrace b) (s.run = .running ∧ s.eip = 0) (halt .endOfProgram .none s) s).symm

theorem afterHandler_mapNext_withTrace (b : Bool) (o : Host.Outcome State Fault Refusal) :
    afterHandler (mapNext (withTrace b) o) = mapNext (withTrace b) (afterHandler o) := by
  cases o with
  | next t => exact congrArg _ (checkSentinel_withTrace b t)
  | fault f => rfl
  | refused r => rfl

theorem movRm32_withTrace (b : Bool) (d : Descriptor) (n : Nat) (imm : Word) (s : State) :
    movRm32 d n imm (withTrace b s) = mapNext (withTrace b) (movRm32 d n imm s) := by
  cases d with
  | reg r => rfl
  | mem ea =>
    by_cases hfits : ea.toNat + 4 ≤ s.config.memCapacity
    · rw [movRm32_mem_of_le hfits, movRm32_mem_of_le (s := withTrace b s) hfits]
      rfl
    · have hout := Nat.lt_of_not_le hfits
      rw [movRm32_mem_of_gt hout, movRm32_mem_of_gt (s := withTrace b s) hout]
      rfl

theorem exec_withTrace (b : Bool) (i : Instr) (s : State) :
    exec i (withTrace b s) = mapNext (withTrace b) (exec i s) := by
  cases i with
  | movRmReg _ rm imm => exact movRm32_withTrace b (.reg rm) 1 imm s
  | movMemLow _ _ _ => exact movRm32_withTrace b _ _ _ s
  | movMemHigh _ _ _ => exact movRm32_withTrace b _ _ _ s
  | movMemDisp8Low _ _ _ _ => exact movRm32_withTrace b _ _ _ s
  | movMemDisp8Ebp _ _ _ => exact movRm32_withTrace b _ _ _ s
  | movMemDisp8High _ _ _ _ => exact movRm32_withTrace b _ _ _ s
  | movMemDisp32Low _ _ _ _ => exact movRm32_withTrace b _ _ _ s
  | movMemDisp32Ebp _ _ _ => exact movRm32_withTrace b _ _ _ s
  | movMemDisp32High _ _ _ _ => exact movRm32_withTrace b _ _ _ s
  | _ => rfl

theorem runDecoded_withTrace (b : Bool) (d : Decoded) (s : State) :
    runDecoded d (withTrace b s) = mapNext (withTrace b) (runDecoded d s) := by
  cases d with
  | unboundOpcode op => rfl
  | truncated => exact congrArg Host.Outcome.fault (fetchFault_withTrace b s)
  | instr i rest => simp only [runDecoded, exec_withTrace, afterHandler_mapNext_withTrace]

theorem step_withTrace (b : Bool) (s : State) : step (withTrace b s) = mapNext (withTrace b) (step s) := by
  by_cases hrun : s.run = .running
  · rw [step_running hrun, step_running (s := withTrace b s) hrun, fetchWindow_withTrace, runDecoded_withTrace]
  · rw [step_stopped hrun, step_stopped (s := withTrace b s) hrun]
    rfl

theorem turn_withTrace (b : Bool) (s : State) : turn (withTrace b s) = withTrace b (turn s) := by
  by_cases hrun : s.run = .running
  · have hrun' : (withTrace b s).run = .running := hrun
    simp only [turn, hrun, hrun', step_withTrace]
    cases step s <;> rfl
  · rw [turn_of_stopped hrun, turn_of_stopped (s := withTrace b s) hrun]

theorem runLoop_withTrace (b : Bool) (n : Nat) (s : State) : runLoop n (withTrace b s) = withTrace b (runLoop n s) := by
  induction n generalizing s with
  | zero => rfl
  | succ n ih => rw [runLoop, runLoop, turn_withTrace, ih]

/-- Settles O52: no fetch, handler or sentinel test reads TRACE_ENABLE, so a turn commutes with its change. -/
theorem traceHasNoInfluence : Obligations.TraceHasNoInfluence :=
  ⟨fun _ => traceOut_of_fetch, fun _ h => h.elim traceOut_of_clear traceOut_of_eip_ge,
    fun s b n => runLoop_withTrace b n s⟩

end Sys2Proof.Machine
end

section
/-! ## The step is the spec's pseudocode: decoding a window of bytes runs as the handler that fetches its own
(40_fetch_dispatch_engine.md R99, 41_modrm.md R118, 42_mov.md, 43_jmp.md) -/

namespace Sys2Proof.Machine

/-! ### Fetches at an offset from EIP, and the window from that offset on -/

section
variable {s : State} {k : Nat}

theorem code8_of_lt (hvalid : s.config.valid = true) (h : s.eip.toNat + k < s.config.memCapacity) :
    code8 s k = .ok (fieldByte s k) := by
  have haddr := toNat_add_ofNat (Nat.lt_trans h (Config.memCapacity_lt_of_valid hvalid))
  rw [code8, memRead8_of_lt (by omega), haddr]
  rfl

theorem code32_of_le (hvalid : s.config.valid = true) (h : s.eip.toNat + (k + 4) ≤ s.config.memCapacity) :
    code32 s k = .ok (fieldWord s k) := by
  have hcap := Config.memCapacity_lt_of_valid hvalid
  have haddr := toNat_add_ofNat (a := s.eip) (k := k) (by omega)
  rw [code32, memRead32_of_le (by omega), haddr]
  rfl

/-- The first byte out of bounds is the one at the capacity, when the window reaches it. -/
theorem fetchFault_eq (hvalid : s.config.valid = true) (hin : s.eip.toNat ≤ s.config.memCapacity)
    (hend : s.config.memCapacity < s.eip.toNat + maxInstrLength) :
    fetchFault s = .boundsViolation s.config.memCapacity := by
  have hcap := Config.memCapacity_lt_of_valid hvalid
  have hlen : (fetchWindow s).length = s.config.memCapacity - s.eip.toNat := by
    rw [fetchWindow_length hvalid]; omega
  have haddr := toNat_add_ofNat (a := s.eip) (k := (fetchWindow s).length) (by omega)
  rw [fetchFault, boundsFault, haddr, hlen]
  congr 1; omega

/-- The address of a fetch that starts in bounds, or just after, and ends out of bounds (decision D9, assumption 4). -/
theorem boundsFault_eip_add (hvalid : s.config.valid = true) (hpos : s.eip.toNat + k ≤ s.config.memCapacity) :
    boundsFault s (s.eip + BitVec.ofNat 32 k) = .boundsViolation s.config.memCapacity := by
  have hcap := Config.memCapacity_lt_of_valid hvalid
  rw [boundsFault, toNat_add_ofNat (by omega), Nat.max_eq_right hpos]

theorem code8_of_ge (hvalid : s.config.valid = true) (hk : k + 1 ≤ maxInstrLength)
    (hpos : s.eip.toNat + k ≤ s.config.memCapacity) (h : s.config.memCapacity < s.eip.toNat + (k + 1)) :
    code8 s k = .error (fetchFault s) := by
  have hcap := Config.memCapacity_lt_of_valid hvalid
  have haddr := toNat_add_ofNat (a := s.eip) (k := k) (by omega)
  rw [fetchFault_eq hvalid (by omega) (by omega), code8, memRead8_of_ge (by omega), haddr]
  congr 2; omega

theorem code32_of_gt (hvalid : s.config.valid = true) (hk : k + 4 ≤ maxInstrLength)
    (hpos : s.eip.toNat + k ≤ s.config.memCapacity) (h : s.config.memCapacity < s.eip.toNat + (k + 4)) :
    code32 s k = .error (fetchFault s) := by
  have hcap := Config.memCapacity_lt_of_valid hvalid
  have haddr := toNat_add_ofNat (a := s.eip) (k := k) (by omega)
  rw [fetchFault_eq hvalid (by omega) (by omega), code32, memRead32_of_gt (by omega),
    boundsFault_eip_add hvalid hpos]

/-- The window from offset `k` on opens with the byte there. -/
theorem fetchWindow_drop (hvalid : s.config.valid = true) (hk : k < maxInstrLength)
    (h : s.eip.toNat + k < s.config.memCapacity) :
    (fetchWindow s).drop k = fieldByte s k :: (fetchWindow s).drop (k + 1) := by
  have hlen : k < (fetchWindow s).length := by rw [fetchWindow_length hvalid]; omega
  rw [List.drop_eq_getElem_cons hlen, fieldByte_of_fetchWindow hvalid (List.getElem?_eq_getElem hlen)]

theorem takeByte_fetchWindow (g : Byte → List Byte → Decoded) (hvalid : s.config.valid = true)
    (hk : k + 1 ≤ maxInstrLength) (h : s.eip.toNat + (k + 1) ≤ s.config.memCapacity) :
    takeByte ((fetchWindow s).drop k) g = g (fieldByte s k) ((fetchWindow s).drop (k + 1)) := by
  rw [fetchWindow_drop hvalid hk h, takeByte_cons]

theorem takeWord_fetchWindow (g : Word → List Byte → Decoded) (hvalid : s.config.valid = true)
    (hk : k + 4 ≤ maxInstrLength) (h : s.eip.toNat + (k + 4) ≤ s.config.memCapacity) :
    takeWord ((fetchWindow s).drop k) g = g (fieldWord s k) ((fetchWindow s).drop (k + 4)) := by
  rw [fetchWindow_drop hvalid (by omega) (by omega), fetchWindow_drop hvalid (by omega) (by omega),
    fetchWindow_drop hvalid (by omega) (by omega), fetchWindow_drop hvalid (by omega) (by omega)]
  rfl

theorem fetchWindow_drop_length_lt {n : Nat} (hvalid : s.config.valid = true)
    (hpos : s.eip.toNat + k ≤ s.config.memCapacity) (h : s.config.memCapacity < s.eip.toNat + (k + n)) :
    ((fetchWindow s).drop k).length < n := by
  rw [List.length_drop, fetchWindow_length hvalid]
  omega

end

theorem takeByte_of_short {bs : List Byte} {g : Byte → List Byte → Decoded} (h : bs.length < 1) :
    takeByte bs g = .truncated := by
  match bs, h with
  | [], _ => rfl

theorem takeWord_of_short {bs : List Byte} {g : Word → List Byte → Decoded} (h : bs.length < 4) :
    takeWord bs g = .truncated := by
  match bs, h with
  | [], _ => rfl
  | [_], _ => rfl
  | [_, _], _ => rfl
  | [_, _, _], _ => rfl

/-! ### Decoded bytes that run as a handler does -/

/-- What the engine does with the decoded bytes is what the handler `e` answers, the sentinel tested after it. -/
def RunsAs (s : State) (d : Decoded) (e : Except Fault State) : Prop := runDecoded d s = afterHandler (toOutcome e)

section
variable {s : State} {k : Nat} {e : Except Fault State}

/-- A byte field: the window and the handler's own fetch get the same byte, or stop alike. -/
theorem runsAs_takeByte {g : Byte → List Byte → Decoded} (hvalid : s.config.valid = true)
    (hk : k + 1 ≤ maxInstrLength) (hpos : s.eip.toNat + k ≤ s.config.memCapacity)
    (hok : s.eip.toNat + (k + 1) ≤ s.config.memCapacity → code8 s k = .ok (fieldByte s k) →
      RunsAs s (g (fieldByte s k) ((fetchWindow s).drop (k + 1))) e)
    (herror : ∀ f, code8 s k = .error f → e = .error f) : RunsAs s (takeByte ((fetchWindow s).drop k) g) e := by
  by_cases hin : s.eip.toNat + (k + 1) ≤ s.config.memCapacity
  · rw [takeByte_fetchWindow g hvalid hk hin]
    exact hok hin (code8_of_lt hvalid hin)
  · have hout := Nat.lt_of_not_le hin
    rw [takeByte_of_short (fetchWindow_drop_length_lt hvalid hpos hout), herror _ (code8_of_ge hvalid hk hpos hout)]
    rfl

/-- A word field: the window and the handler's own fetch get the same word, or stop alike. -/
theorem runsAs_takeWord {g : Word → List Byte → Decoded} (hvalid : s.config.valid = true)
    (hk : k + 4 ≤ maxInstrLength) (hpos : s.eip.toNat + k ≤ s.config.memCapacity)
    (hok : s.eip.toNat + (k + 4) ≤ s.config.memCapacity → code32 s k = .ok (fieldWord s k) →
      RunsAs s (g (fieldWord s k) ((fetchWindow s).drop (k + 4))) e)
    (herror : ∀ f, code32 s k = .error f → e = .error f) : RunsAs s (takeWord ((fetchWindow s).drop k) g) e := by
  by_cases hin : s.eip.toNat + (k + 4) ≤ s.config.memCapacity
  · rw [takeWord_fetchWindow g hvalid hk hin]
    exact hok hin (code32_of_le hvalid hin)
  · have hout := Nat.lt_of_not_le hin
    rw [takeWord_of_short (fetchWindow_drop_length_lt hvalid hpos hout), herror _ (code32_of_gt hvalid hk hpos hout)]
    rfl

theorem runsAs_instr {i : Instr} {rest : List Byte} (h : exec i s = toOutcome e) : RunsAs s (.instr i rest) e :=
  congrArg afterHandler h

end

/-! ### The pseudocode, one equation per case -/

section
variable {s : State} {mode : AddrMode} {reg : BitVec 3} {rm : Reg}

theorem pseudoModrm_of_error {f : Fault} (h : code8 s 1 = .error f) : pseudoModrm s = .error f := by
  simp only [pseudoModrm, h]; rfl

theorem pseudoModrm_direct (h : code8 s 1 = .ok (modrmByte .direct reg rm)) :
    pseudoModrm s = .ok (.modeled (.reg rm) 1) := by
  simp [pseudoModrm, h, Bind.bind, Except.bind]; rfl

theorem pseudoModrm_esp (h : code8 s 1 = .ok (modrmByte mode reg .esp)) (hmode : mode ≠ .direct) :
    pseudoModrm s = .ok (.unmodeled (modrmByte mode reg .esp)) := by
  simp [pseudoModrm, h, Bind.bind, Except.bind, hmode]; rfl

theorem pseudoModrm_noBase (h : code8 s 1 = .ok (modrmByte .noDisp reg .ebp)) :
    pseudoModrm s = .ok (.unmodeled (modrmByte .noDisp reg .ebp)) := by
  simp [pseudoModrm, h, Bind.bind, Except.bind]; rfl

theorem pseudoModrm_noDisp (h : code8 s 1 = .ok (modrmByte .noDisp reg rm)) (hesp : rm ≠ .esp) (hebp : rm ≠ .ebp) :
    pseudoModrm s = .ok (.modeled (.mem (eaBase s rm)) 1) := by
  simp [pseudoModrm, h, Bind.bind, Except.bind, hesp, hebp]; rfl

theorem pseudoModrm_disp8 (h : code8 s 1 = .ok (modrmByte .disp8 reg rm)) (hesp : rm ≠ .esp) :
    pseudoModrm s = (code8 s 2).map fun d => .modeled (.mem (eaDisp8 s rm d)) 2 := by
  simp [pseudoModrm, h, Bind.bind, Except.bind, hesp]; rfl

theorem pseudoModrm_disp32 (h : code8 s 1 = .ok (modrmByte .disp32 reg rm)) (hesp : rm ≠ .esp) :
    pseudoModrm s = (code32 s 2).map fun d => .modeled (.mem (eaDisp32 s rm d)) 5 := by
  simp [pseudoModrm, h, Bind.bind, Except.bind, hesp]; rfl

theorem pseudoHandler_movR32 (op : Byte) :
    pseudoHandler .movR32Imm32 op s =
      (code32 s 1).map fun imm => setEip (writeReg s (opcodeReg op) imm) (s.eip + 5) := rfl

theorem pseudoHandler_nearJump (op : Byte) :
    pseudoHandler .nearJump op s = (code32 s 1).map fun d => setEip s (s.eip + d + 5) := rfl

theorem pseudoHandler_shortJump (op : Byte) :
    pseudoHandler .shortJump op s = (code8 s 1).map fun d => setEip s (s.eip + sext8 d + 2) := rfl

theorem pseudoHandler_of_modrm_error {f : Fault} (op : Byte) (h : pseudoModrm s = .error f) :
    pseudoHandler .movRm32Imm32 op s = .error f := by
  simp only [pseudoHandler, h]; rfl

theorem pseudoHandler_of_unmodeled {m : Byte} (op : Byte) (h : pseudoModrm s = .ok (.unmodeled m)) :
    pseudoHandler .movRm32Imm32 op s = .ok (haltUnimplementedModrm m s) := by
  simp only [pseudoHandler, h]; rfl

theorem pseudoHandler_of_modeled {desc : Descriptor} {n : Nat} (op : Byte) (h : pseudoModrm s = .ok (.modeled desc n)) :
    pseudoHandler .movRm32Imm32 op s = (code32 s (1 + n)).bind fun imm =>
      (writeRm32 desc imm s).map fun t => setEip t (s.eip + BitVec.ofNat 32 (1 + n + 4)) := by
  simp only [pseudoHandler, h]; rfl

theorem pseudoStep_of_fetch {op : Byte} (hrun : s.run = .running) (h : memRead8 s s.eip = .ok op) :
    pseudoStep s = afterHandler (toOutcome (pseudoHandler (dispatchTable op) op s)) := by
  simp only [pseudoStep, hrun, h]
  change toOutcome ((pseudoHandler (dispatchTable op) op s).bind fun t => .ok (checkSentinel t)) = _
  cases pseudoHandler (dispatchTable op) op s <;> rfl

theorem pseudoStep_of_fetch_error {f : Fault} (hrun : s.run = .running) (h : memRead8 s s.eip = .error f) :
    pseudoStep s = .fault f := by
  simp only [pseudoStep, hrun, h]; rfl

theorem pseudoStep_stopped (h : s.run ≠ .running) : pseudoStep s = .fault .engineStopped := by
  unfold pseudoStep
  cases hrun : s.run with
  | running => exact absurd hrun h
  | halted => rfl
  | fatal => rfl

end

/-! ### Opcode `0xC7` -/

section
variable {s : State} {mode : AddrMode} {reg : BitVec 3} {rm : Reg} {op : Byte}

/-- A modeled form: the immediate follows the `1 + n` bytes of opcode, ModRM byte and displacement. -/
theorem runsAs_modeled {desc : Descriptor} {n : Nat} {f : Word → Instr} (hvalid : s.config.valid = true)
    (hn : 1 + n + 4 ≤ maxInstrLength) (hpos : s.eip.toNat + (1 + n) ≤ s.config.memCapacity)
    (hmodrm : pseudoModrm s = .ok (.modeled desc n)) (hexec : ∀ imm, exec (f imm) s = movRm32 desc n imm s) :
    RunsAs s (takeWord ((fetchWindow s).drop (1 + n)) fun imm rest => .instr (f imm) rest)
      (pseudoHandler .movRm32Imm32 op s) := by
  rw [pseudoHandler_of_modeled op hmodrm]
  refine runsAs_takeWord hvalid hn hpos (fun _ himm => ?_) fun g hg => by rw [hg]; rfl
  rw [himm]
  exact runsAs_instr (hexec _)

theorem runsAs_noDisp {f : Word → Instr} (hvalid : s.config.valid = true)
    (hpos : s.eip.toNat + 2 ≤ s.config.memCapacity) (hm : code8 s 1 = .ok (modrmByte .noDisp reg rm)) (hesp : rm ≠ .esp)
    (hebp : rm ≠ .ebp) (hexec : ∀ imm, exec (f imm) s = movRm32 (.mem (eaBase s rm)) 1 imm s) :
    RunsAs s (takeWord ((fetchWindow s).drop 2) fun imm rest => .instr (f imm) rest)
      (pseudoHandler .movRm32Imm32 op s) :=
  runsAs_modeled hvalid (by decide) hpos (pseudoModrm_noDisp hm hesp hebp) hexec

theorem runsAs_disp8 {f : Byte → Word → Instr} (hvalid : s.config.valid = true)
    (hpos : s.eip.toNat + 2 ≤ s.config.memCapacity) (hm : code8 s 1 = .ok (modrmByte .disp8 reg rm)) (hrm : rm ≠ .esp)
    (hexec : ∀ d imm, exec (f d imm) s = movRm32 (.mem (eaDisp8 s rm d)) 2 imm s) :
    RunsAs s (takeByte ((fetchWindow s).drop 2) fun d bs => takeWord bs fun imm rest => .instr (f d imm) rest)
      (pseudoHandler .movRm32Imm32 op s) := by
  have hmodrm := pseudoModrm_disp8 hm hrm
  refine runsAs_takeByte hvalid (by decide) hpos (fun hin hd => ?_) fun g hg => ?_
  · exact runsAs_modeled hvalid (by decide) hin (by rw [hmodrm, hd]; rfl) (hexec _)
  · exact pseudoHandler_of_modrm_error op (by rw [hmodrm, hg]; rfl)

theorem runsAs_disp32 {f : Word → Word → Instr} (hvalid : s.config.valid = true)
    (hpos : s.eip.toNat + 2 ≤ s.config.memCapacity) (hm : code8 s 1 = .ok (modrmByte .disp32 reg rm)) (hrm : rm ≠ .esp)
    (hexec : ∀ d imm, exec (f d imm) s = movRm32 (.mem (eaDisp32 s rm d)) 5 imm s) :
    RunsAs s (takeWord ((fetchWindow s).drop 2) fun d bs => takeWord bs fun imm rest => .instr (f d imm) rest)
      (pseudoHandler .movRm32Imm32 op s) := by
  have hmodrm := pseudoModrm_disp32 hm hrm
  refine runsAs_takeWord hvalid (by decide) hpos (fun hin hd => ?_) fun g hg => ?_
  · exact runsAs_modeled hvalid (by decide) hin (by rw [hmodrm, hd]; rfl) (hexec _)
  · exact pseudoHandler_of_modrm_error op (by rw [hmodrm, hg]; rfl)

theorem runsAs_unmodeled {i : Instr} {m : Byte} {rest : List Byte} (hmodrm : pseudoModrm s = .ok (.unmodeled m))
    (hexec : exec i s = movUnmodeled m s) : RunsAs s (.instr i rest) (pseudoHandler .movRm32Imm32 op s) := by
  rw [pseudoHandler_of_unmodeled op hmodrm]
  exact runsAs_instr hexec

/-- The decoder's table of forms is the pseudocode's (41_modrm.md R118). -/
theorem runsAs_decodeMi (hvalid : s.config.valid = true) (hpos : s.eip.toNat + 2 ≤ s.config.memCapacity)
    (hm : code8 s 1 = .ok (modrmByte mode reg rm)) :
    RunsAs s (decodeMi mode reg rm ((fetchWindow s).drop 2)) (pseudoHandler .movRm32Imm32 op s) := by
  unfold decodeMi
  split
  · exact runsAs_modeled hvalid (by decide) hpos (pseudoModrm_direct hm) fun _ => rfl
  · next hgroup =>
    exact runsAs_noDisp hvalid hpos hm (by rintro rfl; cases hgroup) (by rintro rfl; cases hgroup) fun _ => rfl
  · next hgroup =>
    obtain rfl := rm.group_esp_iff.mp hgroup
    exact runsAs_unmodeled (pseudoModrm_esp hm (by decide)) rfl
  · next hgroup =>
    obtain rfl := rm.group_ebp_iff.mp hgroup
    exact runsAs_unmodeled (pseudoModrm_noBase hm) rfl
  · next hgroup =>
    exact runsAs_noDisp hvalid hpos hm (by rintro rfl; cases hgroup) (by rintro rfl; cases hgroup) fun _ => rfl
  · next hgroup => exact runsAs_disp8 hvalid hpos hm (by rintro rfl; cases hgroup) fun _ _ => rfl
  · next hgroup =>
    obtain rfl := rm.group_esp_iff.mp hgroup
    exact runsAs_unmodeled (pseudoModrm_esp hm (by decide)) rfl
  · next hgroup =>
    obtain rfl := rm.group_ebp_iff.mp hgroup
    exact runsAs_disp8 hvalid hpos hm (by decide) fun _ _ => rfl
  · next hgroup => exact runsAs_disp8 hvalid hpos hm (by rintro rfl; cases hgroup) fun _ _ => rfl
  · next hgroup => exact runsAs_disp32 hvalid hpos hm (by rintro rfl; cases hgroup) fun _ _ => rfl
  · next hgroup =>
    obtain rfl := rm.group_esp_iff.mp hgroup
    exact runsAs_unmodeled (pseudoModrm_esp hm (by decide)) rfl
  · next hgroup =>
    obtain rfl := rm.group_ebp_iff.mp hgroup
    exact runsAs_disp32 hvalid hpos hm (by decide) fun _ _ => rfl
  · next hgroup => exact runsAs_disp32 hvalid hpos hm (by rintro rfl; cases hgroup) fun _ _ => rfl

theorem runsAs_decodeMovRm32 (hvalid : s.config.valid = true) (hpos : s.eip.toNat + 1 ≤ s.config.memCapacity) :
    RunsAs s (takeByte ((fetchWindow s).drop 1) decodeMovRm32) (pseudoHandler .movRm32Imm32 op s) := by
  refine runsAs_takeByte hvalid (by decide) hpos (fun hin hm => ?_) fun f hf => ?_
  · exact runsAs_decodeMi hvalid hin (by rw [hm, modrmByte_fields])
  · exact pseudoHandler_of_modrm_error op (pseudoModrm_of_error hf)

end

/-! ### The whole step -/

theorem exec_movR32 (r : Reg) (imm : Word) (s : State) : exec (Instr.movR32 r imm) s = movR32 r imm s := by
  cases r <;> rfl

/-- With the opcode byte in bounds the decoder and the handler of its slot agree. -/
theorem runsAs_decode {s : State} (hvalid : s.config.valid = true) (hpos : s.eip.toNat + 1 ≤ s.config.memCapacity) :
    RunsAs s (decode (fetchWindow s)) (pseudoHandler (dispatchTable (fieldByte s 0)) (fieldByte s 0) s) := by
  have hwindow : fetchWindow s = fieldByte s 0 :: (fetchWindow s).drop 1 :=
    fetchWindow_drop (k := 0) hvalid (by decide) hpos
  rw [hwindow, decode, takeByte_cons]
  cases dispatchTable (fieldByte s 0) with
  | empty => exact congrArg Host.Outcome.next (checkSentinel_of_stopped (s := haltUnimplementedOpcode _ s) nofun).symm
  | movR32Imm32 =>
    rw [pseudoHandler_movR32]
    refine runsAs_takeWord hvalid (by decide) hpos (fun _ himm => ?_) fun f hf => by rw [hf]; rfl
    rw [himm]
    exact runsAs_instr (exec_movR32 _ _ s)
  | movRm32Imm32 => exact runsAs_decodeMovRm32 hvalid hpos
  | nearJump =>
    rw [pseudoHandler_nearJump]
    refine runsAs_takeWord hvalid (by decide) hpos (fun _ hd => ?_) fun f hf => by rw [hf]; rfl
    rw [hd]
    exact runsAs_instr rfl
  | shortJump =>
    rw [pseudoHandler_shortJump]
    refine runsAs_takeByte hvalid (by decide) hpos (fun _ hd => ?_) fun f hf => by rw [hf]; rfl
    rw [hd]
    exact runsAs_instr rfl

/-- Settles O35: outside RUNNING and with the opcode out of bounds both stop alike; otherwise the decoder and the handlers
agree field by field. -/
theorem stepIsThePseudocodeStep : Obligations.StepIsThePseudocodeStep := by
  intro s hvalid
  by_cases hrun : s.run = .running
  · by_cases hin : s.eip.toNat < s.config.memCapacity
    · rw [pseudoStep_of_fetch hrun (memRead8_of_lt hin), step_running hrun]
      exact runsAs_decode hvalid hin
    · have hout := Nat.le_of_not_lt hin
      rw [pseudoStep_of_fetch_error hrun (memRead8_of_ge hout), step_of_eip_ge hrun hout]
  · rw [step_stopped hrun, pseudoStep_stopped hrun]

end Sys2Proof.Machine
end

section
/-! ## Effective addresses as integers, and the unmodeled ModRM encodings (41_modrm.md R112 to R116) -/

namespace Sys2Proof.Machine

/-- R113 and R115: the sign-extended byte adds as the signed number it is. -/
theorem toNat_eaDisp8 (s : State) (base : Reg) (d : Byte) :
    ((eaDisp8 s base d).toNat : Int) = ((readReg s base).toNat + d.toInt) % 2 ^ 32 := by
  rw [eaDisp8, toNat_add_eq_toInt, toInt_sext8]

/-- R114 and R115. -/
theorem toNat_eaDisp32 (s : State) (base : Reg) (d : Word) :
    ((eaDisp32 s base d).toNat : Int) = ((readReg s base).toNat + d.toInt) % 2 ^ 32 :=
  toNat_add_eq_toInt (readReg s base) d

/-- Settles O15: a word sum is the integer sum with the signed displacement modulo `2^32`, and widening keeps the sign. -/
theorem effectiveAddressesAreSumsModulo : Obligations.EffectiveAddressesAreSumsModulo :=
  fun s base => ⟨rfl, toNat_eaDisp8 s base, toNat_eaDisp32 s base⟩

/-- R116, R175: what the handler shared by the unmodeled rows leaves, field by field. -/
theorem movUnmodeled_eq (m : Byte) (s : State) :
    movUnmodeled m s = .next { s with run := .halted, haltCause := .unimplementedModrm, haltOpcode := 0xC7,
                                      haltModrm := m } := rfl

/-- Settles O20: the four rows share one handler, each giving it the ModRM byte of its own mod, reg and rm. -/
theorem unmodeledRowsHaltTheEngine : Obligations.UnmodeledRowsHaltTheEngine :=
  fun s reg => ⟨movUnmodeled_eq (modrmByte .noDisp reg .esp) s, movUnmodeled_eq (modrmByte .noDisp reg .ebp) s,
    movUnmodeled_eq (modrmByte .disp8 reg .esp) s, movUnmodeled_eq (modrmByte .disp32 reg .esp) s⟩

end Sys2Proof.Machine
end

section
/-! ## The moves as instructions: what each completes with and leaves alone, and that a step changes one register or one
word of memory (42_mov.md R130 to R143) -/

namespace Sys2Proof.Machine

/-! ### The two effects of a move, each with its frame -/

/-- A register write and a move of EIP change nothing else (10_state.md R23, R27). -/
theorem writesRegister_of_exec {i : Instr} {s : State} {r : Reg} {v len : Word}
    (h : exec i s = .next (setEip (writeReg s r v) (s.eip + len))) : WritesRegister i s r v len :=
  ⟨_, h, readReg_writeReg_same s r v, rfl, fun q hq => readReg_writeReg_other s r q v hq, fun _ => rfl,
    rfl, rfl, rfl, rfl, rfl, rfl⟩

/-- A stored word and a move of EIP change nothing else (20_memory.md R45, 10_state.md R27). -/
theorem storedWord_frame {s t : State} {ea v e : Word}
    (h : t = setEip { s with mem := Memory.writeBytes s.mem ea.toNat (bytesOfWord v) } e) :
    HoldsWord t ea.toNat v ∧ t.eip = e ∧ MemSameOutside s t ea.toNat 4 ∧ RegsSame s t ∧ EngineSame s t := by
  subst h
  exact ⟨holdsWord_writeBytes s ea.toNat v, rfl, memSameOutside_writeBytes s ea.toNat (bytesOfWord v), fun _ => rfl,
    rfl, rfl, rfl, rfl, rfl, rfl⟩

/-- The handler of a memory operand stores all four bytes or stops (20_memory.md R45; decisions D8 and D9). -/
theorem storesWord_of_exec {i : Instr} {s : State} {ea v : Word} {n : Nat}
    (h : exec i s = movRm32 (.mem ea) n v s) : StoresWord i s ea v (BitVec.ofNat 32 (1 + n + 4)) := by
  constructor
  · intro hin
    exact ⟨_, h.trans (movRm32_mem_of_le hin), storedWord_frame rfl⟩
  · intro hout
    rw [h, movRm32_mem_of_gt (Nat.lt_succ_of_le hout), boundsFault_eq]

/-- Settles O16: the eight handlers are one, each with its own register. -/
theorem shortMovesWriteTheirRegister : Obligations.ShortMovesWriteTheirRegister :=
  fun _ _ => ⟨writesRegister_of_exec rfl, writesRegister_of_exec rfl, writesRegister_of_exec rfl,
    writesRegister_of_exec rfl, writesRegister_of_exec rfl, writesRegister_of_exec rfl, writesRegister_of_exec rfl,
    writesRegister_of_exec rfl⟩

/-- Settles O17: the handler is given no reg field, and a register operand is always written. -/
theorem registerFormWritesTheRmRegister : Obligations.RegisterFormWritesTheRmRegister :=
  fun s _ rm imm => writesRegister_of_exec (movRm32_reg rm 1 imm s)

/-- Settles O18: the eight rows share the handler of a memory operand, each with its effective address and length. -/
theorem memoryFormsStoreTheImmediate : Obligations.MemoryFormsStoreTheImmediate :=
  fun _ _ _ _ => ⟨storesWord_of_exec (n := 1) rfl, storesWord_of_exec (n := 1) rfl,
    fun _ => ⟨storesWord_of_exec (n := 2) rfl, storesWord_of_exec (n := 2) rfl, storesWord_of_exec (n := 2) rfl⟩,
    fun _ => ⟨storesWord_of_exec (n := 5) rfl, storesWord_of_exec (n := 5) rfl, storesWord_of_exec (n := 5) rfl⟩⟩

/-! ### What a step leaves alone -/

/-- All but one register and all of memory are unchanged, or every register and all of memory but four bytes in a row. -/
def OneRegisterOrWord (s t : State) : Prop :=
  (∃ r, RegsSameBut s t r ∧ MemSame s t) ∨ (∃ a, RegsSame s t ∧ MemSameOutside s t a 4)

theorem oneRegisterOrWord_of_same {s t : State} (hregs : t.regs = s.regs) (hmem : t.mem = s.mem) :
    OneRegisterOrWord s t :=
  .inr ⟨0, fun q => congrArg (·.get q) hregs, fun x _ => congrArg (·.read x) hmem⟩

theorem ExecEffect.oneRegisterOrWord {s t : State} (heffect : ExecEffect s t) : OneRegisterOrWord s t := by
  rcases heffect with ⟨r, v, e, rfl⟩ | ⟨ea, v, e, -, rfl⟩ | ⟨e, rfl⟩ | ⟨m, -, rfl⟩
  · exact .inl ⟨r, fun q hq => readReg_writeReg_other s r q v hq, fun _ => rfl⟩
  · exact .inr ⟨ea, fun _ => rfl, memSameOutside_writeBytes s ea (bytesOfWord v)⟩
  · exact oneRegisterOrWord_of_same rfl rfl
  · exact oneRegisterOrWord_of_same rfl rfl

/-- The sentinel test writes neither registers nor memory. -/
theorem oneRegisterOrWord_checkSentinel {s u : State} (h : OneRegisterOrWord s u) :
    OneRegisterOrWord s (checkSentinel u) := by
  rcases checkSentinel_cases u with hsame | ⟨-, -, hhalt⟩
  · rwa [hsame]
  · rw [hhalt]
    exact h

theorem step_oneRegisterOrWord {s t : State} (hstep : step s = .next t) : OneRegisterOrWord s t := by
  obtain ⟨-, ⟨op, -, rfl⟩ | ⟨i, rest, u, -, hexec, rfl⟩⟩ := step_eq_next hstep
  · exact oneRegisterOrWord_of_same rfl rfl
  · exact oneRegisterOrWord_checkSentinel (exec_eq_next hexec).oneRegisterOrWord

/-- Settles O42: what has changed lies in the one register, or in the four bytes in a row. -/
theorem stepChangesOneRegisterOrMemory : Obligations.StepChangesOneRegisterOrMemory := by
  intro s t hstep
  rcases step_oneRegisterOrWord hstep with ⟨r, hregs, hmem⟩ | ⟨a, hregs, hmem⟩
  · have hnamed (q : Reg) (hq : readReg t q ≠ readReg s q) : q = r := by
      by_contra hother
      exact hq (hregs q hother)
    exact ⟨fun q r' hq hr => (hnamed q hq).trans (hnamed r' hr).symm, fun _ _ => hmem, fun x _ hx => absurd (hmem x) hx⟩
  · have hinside (x : Nat) (hx : readByte t x ≠ readByte s x) : a ≤ x ∧ x < a + 4 := by
      by_contra houtside
      exact hx (hmem x (by omega))
    refine ⟨fun q _ hq => absurd (hregs q) hq, fun q hq => absurd (hregs q) hq, fun x y hx hy => ?_⟩
    have hxa := hinside x hx
    have hya := hinside y hy
    omega

end Sys2Proof.Machine
end

section
/-! ## The whole step of the moves, by way of the handler that the pseudocode gives the opcode (42_mov.md R130 to R142,
40_fetch_dispatch_engine.md R99, 60_exceptions.md R174 to R177) -/

namespace Sys2Proof

/-! ### Register numbers and the fields of the ModRM byte -/

theorem eq_number_of_mem_numberedRegs {n : Nat} {r : Reg} (h : (n, r) ∈ Machine.numberedRegs) : n = r.number.toNat := by
  revert h
  cases r <;> simp [Machine.numberedRegs, Reg.number]

theorem modOf_of_toNat_div (m : Byte) (mode : AddrMode) : m.toNat / 64 = mode.bits.toNat → modOf m = mode := by
  revert m; cases mode <;> decide

theorem rmOf_of_toNat_mod (m : Byte) (r : Reg) : m.toNat % 8 = r.number.toNat → rmOf m = r := by
  revert m; cases r <;> decide

/-- The ModRM byte from its mod and rm fields as numbers (decisions D3 and D15, assumptions 8 and 9). -/
theorem eq_modrmByte_of_fields {m : Byte} {mode : AddrMode} {r : Reg} (hmod : m.toNat / 64 = mode.bits.toNat)
    (hrm : (m.toNat % 8, r) ∈ Machine.numberedRegs) : m = modrmByte mode (regOf m) r := by
  rw [← modOf_of_toNat_div m mode hmod, ← rmOf_of_toNat_mod m r (eq_number_of_mem_numberedRegs hrm), modrmByte_fields]

end Sys2Proof

namespace Sys2Proof.Machine

/-! ### From the handler to the step -/

section
variable {s t : State} {op : Byte} {a k : Nat}

theorem AtOpcode.valid (hat : AtOpcode s op) : s.config.valid = true := hat.1

theorem AtOpcode.running (hat : AtOpcode s op) : s.run = .running := hat.2.1

theorem AtOpcode.eip_lt (hat : AtOpcode s op) : s.eip.toNat < s.config.memCapacity := hat.2.2.1

theorem step_of_handler (hat : AtOpcode s op) {e : Except Fault State}
    (h : pseudoHandler (dispatchTable op) op s = e) : step s = afterHandler (toOutcome e) := by
  obtain ⟨hvalid, hrun, hin, rfl⟩ := hat
  rw [stepIsThePseudocodeStep s hvalid, pseudoStep_of_fetch hrun (memRead8_of_lt hin), h]

/-- Just after bytes that were in bounds EIP is not 0 (00_scope.md R6). -/
theorem eip_add_ne_zero (hvalid : s.config.valid = true) (hk : 0 < k) (hin : s.eip.toNat + k ≤ s.config.memCapacity) :
    s.eip + BitVec.ofNat 32 k ≠ 0 := by
  have hcap := Config.memCapacity_lt_of_valid hvalid
  have hsum := toNat_add_ofNat (a := s.eip) (k := k) (by omega)
  intro hzero
  have hzeroNat : (s.eip + BitVec.ofNat 32 k).toNat = 0 := congrArg BitVec.toNat hzero
  omega

/-- A handler that leaves EIP just after bytes in bounds is not stopped by the sentinel. -/
theorem step_of_handler_ok (hat : AtOpcode s op) (h : pseudoHandler (dispatchTable op) op s = .ok t)
    (heip : t.eip = s.eip + BitVec.ofNat 32 k) (hk : 0 < k) (hin : s.eip.toNat + k ≤ s.config.memCapacity) :
    step s = .next t := by
  rw [step_of_handler hat h]
  exact congrArg Host.Outcome.next (checkSentinel_of_ne (heip ▸ eip_add_ne_zero hat.valid hk hin))

/-- A handler's bounds violation is the step's, and the fatal stop writes RUN only (R177, decision D9). -/
theorem stopsAt_of_handler_error (hat : AtOpcode s op)
    (h : pseudoHandler (dispatchTable op) op s = .error (.boundsViolation a)) : StopsAt s a := by
  have hstep : step s = .fault (.boundsViolation a) := step_of_handler hat h
  refine ⟨hstep, ?_⟩
  rw [turn_of_fault hat.running hstep]
  exact ⟨fun _ => rfl, rfl, rfl, fun _ => rfl⟩

/-! ### Fetches that run out of bounds -/

theorem code8_at_capacity (hvalid : s.config.valid = true) (h : s.eip.toNat + k = s.config.memCapacity) :
    code8 s k = .error (.boundsViolation s.config.memCapacity) := by
  have haddr := toNat_add_ofNat (h ▸ Config.memCapacity_lt_of_valid hvalid)
  rw [code8, memRead8_of_ge (by omega), haddr, h]

theorem code32_across_capacity (hvalid : s.config.valid = true) (hpos : s.eip.toNat + k ≤ s.config.memCapacity)
    (h : s.config.memCapacity < s.eip.toNat + (k + 4)) :
    code32 s k = .error (.boundsViolation s.config.memCapacity) := by
  have hcap := Config.memCapacity_lt_of_valid hvalid
  have haddr := toNat_add_ofNat (a := s.eip) (k := k) (by omega)
  rw [code32, memRead32_of_gt (by omega), boundsFault_eip_add hvalid hpos]

end

/-! ### The short moves -/

/-- Settles O23: the handler of the slot fetches one word, and its register is the one the opcode numbers. -/
theorem shortMoveStep : Obligations.ShortMoveStep := by
  intro s n r hnumbered hat
  obtain rfl := eq_number_of_mem_numberedRegs hnumbered
  rw [BitVec.ofNat_toNat] at hat
  obtain ⟨hslot, hreg⟩ := shortMove_slot r
  have hhandler := pseudoHandler_movR32 (s := s) (0xB8 + r.number.zeroExtend 8)
  rw [hreg, ← hslot] at hhandler
  constructor
  · intro hfits
    rw [code32_of_le hat.valid hfits] at hhandler
    exact step_of_handler_ok hat hhandler (k := 5) rfl (by decide) hfits
  · intro hout
    rw [code32_across_capacity hat.valid hat.eip_lt (Nat.lt_succ_of_le hout)] at hhandler
    exact stopsAt_of_handler_error hat hhandler

/-! ### The modeled forms of opcode `0xC7` -/

section
variable {s : State} {desc : Descriptor} {n : Nat}

/-- With the immediate in bounds a modeled form writes it to its operand. -/
theorem pseudoHandler_of_imm (hvalid : s.config.valid = true) (hmodrm : pseudoModrm s = .ok (.modeled desc n))
    (hfits : s.eip.toNat + (1 + n + 4) ≤ s.config.memCapacity) :
    pseudoHandler (dispatchTable 0xC7) 0xC7 s =
      (writeRm32 desc (fieldWord s (1 + n)) s).map fun t => setEip t (s.eip + BitVec.ofNat 32 (1 + n + 4)) := by
  refine (pseudoHandler_of_modeled 0xC7 hmodrm).trans ?_
  rw [code32_of_le hvalid hfits]
  rfl

/-- With the immediate out of bounds a modeled form stops before it writes. -/
theorem stopsAt_of_imm_out (hat : AtOpcode s 0xC7) (hmodrm : pseudoModrm s = .ok (.modeled desc n))
    (hpos : s.eip.toNat + (1 + n) ≤ s.config.memCapacity)
    (hout : s.config.memCapacity < s.eip.toNat + (1 + n + 4)) : StopsAt s s.config.memCapacity := by
  refine stopsAt_of_handler_error hat ((pseudoHandler_of_modeled 0xC7 hmodrm).trans ?_)
  rw [code32_across_capacity hat.valid hpos hout]
  rfl

/-- With a byte of `decode()` out of bounds the handler stops there. -/
theorem stopsAt_of_modrm_error {a : Nat} (hat : AtOpcode s 0xC7)
    (hmodrm : pseudoModrm s = .error (.boundsViolation a)) : StopsAt s a :=
  stopsAt_of_handler_error hat (pseudoHandler_of_modrm_error 0xC7 hmodrm)

/-- The step of a memory form, from what `decode()` answers with its `1 + n` bytes in bounds and with one of them out. -/
theorem stepStores_of_modrm {ea : Word} (hat : AtOpcode s 0xC7)
    (hok : s.eip.toNat + (1 + n) ≤ s.config.memCapacity → pseudoModrm s = .ok (.modeled (.mem ea) n))
    (herror : s.config.memCapacity < s.eip.toNat + (1 + n) →
      pseudoModrm s = .error (.boundsViolation s.config.memCapacity)) :
    StepStores s ea (1 + n) (1 + n + 4) := by
  have hstore (hfits : s.eip.toNat + (1 + n + 4) ≤ s.config.memCapacity) :=
    pseudoHandler_of_imm hat.valid (hok (by omega)) hfits
  refine ⟨fun hfits hea => ?_, fun hout => ?_, fun hfits hea => ?_⟩
  · refine ⟨_, step_of_handler_ok hat ?_ (k := 1 + n + 4) rfl (by omega) hfits, storedWord_frame rfl⟩
    rw [hstore hfits, writeRm32, memWrite32_of_le hea]
    rfl
  · by_cases hpos : s.eip.toNat + (1 + n) ≤ s.config.memCapacity
    · exact stopsAt_of_imm_out hat (hok hpos) hpos hout
    · exact stopsAt_of_modrm_error hat (herror (Nat.lt_of_not_le hpos))
  · refine stopsAt_of_handler_error hat ?_
    rw [hstore hfits, writeRm32, memWrite32_of_gt (Nat.lt_succ_of_le hea), boundsFault_eq]
    rfl

/-- The ModRM byte at EIP + 1 from its mod and rm fields as numbers. -/
theorem code8_modrm {mode : AddrMode} {r : Reg} (hvalid : s.config.valid = true)
    (hin : s.eip.toNat + 1 < s.config.memCapacity) (hmod : (fieldByte s 1).toNat / 64 = mode.bits.toNat)
    (hrm : ((fieldByte s 1).toNat % 8, r) ∈ numberedRegs) :
    code8 s 1 = .ok (modrmByte mode (regOf (fieldByte s 1)) r) := by
  rw [code8_of_lt hvalid hin, ← eq_modrmByte_of_fields hmod hrm]

theorem ne_of_numbered {k : Nat} {r q : Reg} (hr : (k, r) ∈ numberedRegs) (hk : k ≠ q.number.toNat) : r ≠ q := by
  rintro rfl
  exact hk (eq_number_of_mem_numberedRegs hr)

end

/-- Settles O24: a register operand is always written, so only the fetches of the ModRM byte and the immediate can stop
the step. -/
theorem registerFormStep : Obligations.RegisterFormStep := by
  intro s hat
  constructor
  · intro hout
    have hend : s.eip.toNat + 1 = s.config.memCapacity := Nat.le_antisymm hat.eip_lt hout
    rw [hend]
    exact stopsAt_of_modrm_error hat (pseudoModrm_of_error (code8_at_capacity hat.valid hend))
  · intro r hin hmod hrm
    have hmodrm := pseudoModrm_direct (code8_modrm (mode := .direct) hat.valid hin hmod hrm)
    constructor
    · intro hfits
      exact step_of_handler_ok hat (pseudoHandler_of_imm hat.valid hmodrm hfits) (k := 6) rfl (by decide) hfits
    · intro hout
      exact stopsAt_of_imm_out hat hmodrm hin (Nat.lt_succ_of_le hout)

/-- Settles O25: mod `00` reads nothing after its ModRM byte, which is in bounds, before the immediate. -/
theorem baseFormStep : Obligations.BaseFormStep := by
  intro s base hat hin hmod hrm hesp hebp
  have hm := code8_modrm (mode := .noDisp) hat.valid hin hmod hrm
  exact stepStores_of_modrm (n := 1) hat
    (fun _ => pseudoModrm_noDisp hm (ne_of_numbered hrm hesp) (ne_of_numbered hrm hebp))
    (fun hout => absurd hin (by omega))

/-- Settles O26: mod `01` reads its displacement byte, and the address is the sum of O15. -/
theorem disp8FormStep : Obligations.Disp8FormStep := by
  intro s base ea hat hin hmod hrm hesp hea
  have hmodrm := pseudoModrm_disp8 (code8_modrm (mode := .disp8) hat.valid hin hmod hrm) (ne_of_numbered hrm hesp)
  obtain rfl : ea = eaDisp8 s base (fieldByte s 2) :=
    BitVec.eq_of_toNat_eq (Int.ofNat.inj (hea.trans (toNat_eaDisp8 s base _).symm))
  refine stepStores_of_modrm (n := 2) hat (fun hd => ?_) (fun hd => ?_)
  · rw [hmodrm, code8_of_lt hat.valid hd]
    rfl
  · rw [hmodrm, code8_at_capacity hat.valid (by omega)]
    rfl

/-- Settles O27: mod `10` reads its displacement word, and the address is the sum of O15. -/
theorem disp32FormStep : Obligations.Disp32FormStep := by
  intro s base ea hat hin hmod hrm hesp hea
  have hmodrm := pseudoModrm_disp32 (code8_modrm (mode := .disp32) hat.valid hin hmod hrm) (ne_of_numbered hrm hesp)
  obtain rfl : ea = eaDisp32 s base (fieldWord s 2) :=
    BitVec.eq_of_toNat_eq (Int.ofNat.inj (hea.trans (toNat_eaDisp32 s base _).symm))
  refine stepStores_of_modrm (n := 5) hat (fun hd => ?_) (fun hd => ?_)
  · rw [hmodrm, code32_of_le hat.valid hd]
    rfl
  · rw [hmodrm, code32_across_capacity hat.valid hin hd]
    rfl

/-! ### The unmodeled encodings of opcode `0xC7` -/

/-- `decode()` answers "unmodeled" for the ModRM bytes in the four patterns (41_modrm.md R116, R118). -/
theorem pseudoModrm_of_mem_unmodeledPatterns {s : State} {m : Byte} (hm : code8 s 1 = .ok m)
    (hpattern : m &&& 0xC7 ∈ unmodeledPatterns) : pseudoModrm s = .ok (.unmodeled m) := by
  rw [← modrmByte_fields m] at hm ⊢
  rcases (mem_unmodeledPatterns_iff m).mp hpattern with ⟨hmode, hrm⟩ | ⟨hmode, hrm⟩
  · rw [hrm] at hm ⊢
    exact pseudoModrm_esp hm hmode
  · rw [hmode, hrm] at hm ⊢
    exact pseudoModrm_noBase hm

/-- Settles O28: the handler halts before it fetches an immediate, and a halted core is not tested for the sentinel. -/
theorem unmodeledModrmStep : Obligations.UnmodeledModrmStep := by
  intro s hat hin hpattern
  have hmodrm := pseudoModrm_of_mem_unmodeledPatterns (code8_of_lt hat.valid hin) hpattern
  rw [step_of_handler hat (pseudoHandler_of_unmodeled 0xC7 hmodrm)]
  exact congrArg Host.Outcome.next (checkSentinel_of_stopped nofun)

end Sys2Proof.Machine
end

section
/-! ## The jumps, as instructions and as whole steps (43_jmp.md R150, R151) -/

namespace Sys2Proof.Machine

/-! ### The target -/

/-- Both sums of a jump are the integer sum modulo `2^32`, the displacement and the length `len` being signed. -/
theorem toNat_jumpTarget (old d len : Word) :
    ((old + d + len).toNat : Int) = (old.toNat + d.toInt + len.toInt) % 2 ^ 32 := by
  rw [toNat_add_eq_toInt, toNat_add_eq_toInt, Int.emod_add_emod]

theorem toNat_shortJumpTarget (old : Word) (d : Byte) :
    ((old + sext8 d + 2).toNat : Int) = (old.toNat + d.toInt + 2) % 2 ^ 32 := by
  rw [toNat_jumpTarget, toInt_sext8]
  rfl

theorem toNat_nearJumpTarget (old d : Word) :
    ((old + d + 5).toNat : Int) = (old.toNat + d.toInt + 5) % 2 ^ 32 :=
  toNat_jumpTarget old d 5

/-- R151: the displacement read as unsigned gives the same target. -/
theorem toNat_nearJumpTarget_unsigned (old d : Word) : (old + d + 5).toNat = (old.toNat + d.toNat + 5) % 2 ^ 32 := by
  rw [BitVec.toNat_add, BitVec.toNat_add, Nat.mod_add_mod]
  rfl

/-! ### The instructions -/

/-- A move of EIP leaves registers, memory and the engine alone (10_state.md R27). -/
theorem setEip_frame (s : State) (v : Word) :
    RegsSame s (setEip s v) ∧ MemSame s (setEip s v) ∧ EngineSame s (setEip s v) :=
  ⟨fun _ => rfl, fun _ => rfl, rfl, rfl, rfl, rfl, rfl, rfl⟩

/-- Settles O19: each handler is one move of EIP, to a sum that is the integer one modulo `2^32`. -/
theorem jumpsOnlyMoveEip : Obligations.JumpsOnlyMoveEip :=
  ⟨fun s d => ⟨_, rfl, toNat_shortJumpTarget s.eip d, setEip_frame s _⟩,
    fun s d => ⟨_, rfl, toNat_nearJumpTarget s.eip d, toNat_nearJumpTarget_unsigned s.eip d, setEip_frame s _⟩⟩

/-! ### The whole steps -/

/-- After a handler that only moves EIP the sentinel test decides: the core goes on, or the program ends (R100). -/
theorem step_of_handler_setEip {s : State} {op : Byte} {target : Word} (hat : AtOpcode s op)
    (h : pseudoHandler (dispatchTable op) op s = .ok (setEip s target)) :
    (target ≠ 0 → step s = .next { s with eip := target }) ∧
      (target = 0 → step s = .next { s with eip := 0, run := .halted, haltCause := .endOfProgram }) := by
  have hstep : step s = .next (checkSentinel (setEip s target)) := step_of_handler hat h
  rw [hstep]
  constructor
  · intro hne
    exact congrArg Host.Outcome.next (checkSentinel_of_ne (s := setEip s target) hne)
  · rintro rfl
    exact congrArg Host.Outcome.next (checkSentinel_of_zero (s := setEip s 0) hat.running rfl)

/-- Settles O29: the handler fetches one byte, and a word is the target when it is the sum of O19. -/
theorem shortJumpStep : Obligations.ShortJumpStep := by
  intro s target hat
  have hhandler := pseudoHandler_shortJump (s := s) 0xEB
  constructor
  · intro hin htarget
    obtain rfl : target = s.eip + sext8 (fieldByte s 1) + 2 :=
      BitVec.eq_of_toNat_eq (Int.ofNat.inj (htarget.trans (toNat_shortJumpTarget s.eip _).symm))
    rw [code8_of_lt hat.valid hin] at hhandler
    exact step_of_handler_setEip hat hhandler
  · intro hout
    have hend : s.eip.toNat + 1 = s.config.memCapacity := Nat.le_antisymm hat.eip_lt hout
    rw [code8_at_capacity hat.valid hend] at hhandler
    rw [hend]
    exact stopsAt_of_handler_error hat hhandler

/-- Settles O30: the handler fetches one word, and a word is the target when it is the sum of O19. -/
theorem nearJumpStep : Obligations.NearJumpStep := by
  intro s target hat
  have hhandler := pseudoHandler_nearJump (s := s) 0xE9
  constructor
  · intro hin htarget
    obtain rfl : target = s.eip + fieldWord s 1 + 5 :=
      BitVec.eq_of_toNat_eq (Int.ofNat.inj (htarget.trans (toNat_nearJumpTarget s.eip _).symm))
    rw [code32_of_le hat.valid hin] at hhandler
    exact step_of_handler_setEip hat hhandler
  · intro hout
    rw [code32_across_capacity hat.valid hat.eip_lt (Nat.lt_succ_of_le hout)] at hhandler
    exact stopsAt_of_handler_error hat hhandler

end Sys2Proof.Machine
end

section
/-! ## The path of a run: two cores alike in EIP and engine state stay so while they decode the same bytes and complete
their steps, whatever their registers and memory (43_jmp.md R152) -/

namespace Sys2Proof.Machine

/-- Two cores alike in EIP, EFLAGS, the engine state, the status values and the parameters. -/
def PathAlike (s s' : State) : Prop := s'.eip = s.eip ∧ EngineSame s s'

/-! ### Instructions -/

section
variable {s s' t t' : State}

/-- A halt gives both cores the same cause and the same bytes, if it records any. -/
theorem pathAlike_halt (hpath : PathAlike s s') (cause : HaltCause) (info : HaltInfo) :
    PathAlike (halt cause info s) (halt cause info s') := by
  obtain ⟨heip, hflags, -, -, hopcode, hmodrm, hconfig⟩ := hpath
  cases info with
  | none => exact ⟨heip, hflags, rfl, rfl, hopcode, hmodrm, hconfig⟩
  | opcode _ => exact ⟨heip, hflags, rfl, rfl, rfl, hmodrm, hconfig⟩
  | modrm _ _ => exact ⟨heip, hflags, rfl, rfl, rfl, rfl, hconfig⟩

theorem pathAlike_movR32 {r : Reg} {imm : Word} (hpath : PathAlike s s') (h : movR32 r imm s = .next t)
    (h' : movR32 r imm s' = .next t') : PathAlike t t' := by
  obtain ⟨heip, hengine⟩ := hpath
  cases h
  cases h'
  exact ⟨congrArg (· + 5) heip, hengine⟩

/-- The operand may lie at another address in the other core: both handlers move EIP past the instruction. -/
theorem pathAlike_movRm32 {d d' : Descriptor} {n : Nat} {imm : Word} (hpath : PathAlike s s')
    (h : movRm32 d n imm s = .next t) (h' : movRm32 d' n imm s' = .next t') : PathAlike t t' := by
  have heip : t'.eip = t.eip := by rw [eip_of_movRm32 h, eip_of_movRm32 h', hpath.1]
  have hengine := hpath.2
  rcases movRm32_eq_next h with ⟨r, -, rfl⟩ | ⟨ea, -, -, rfl⟩ <;>
  rcases movRm32_eq_next h' with ⟨r', -, rfl⟩ | ⟨ea', -, -, rfl⟩ <;>
  exact ⟨heip, hengine⟩

/-- Registers reach an instruction's result only as a store's address, and so not the path of one that completes. -/
theorem pathAlike_exec {i : Instr} (hpath : PathAlike s s') (h : exec i s = .next t) (h' : exec i s' = .next t') :
    PathAlike t t' := by
  have ⟨heip, hengine⟩ := hpath
  cases i with
  | movEax _ | movEcx _ | movEdx _ | movEbx _ | movEsp _ | movEbp _ | movEsi _ | movEdi _ =>
    exact pathAlike_movR32 hpath h h'
  | jmpRel8 d =>
    cases h
    cases h'
    exact ⟨congrArg (· + sext8 d + 2) heip, hengine⟩
  | jmpRel32 d =>
    cases h
    cases h'
    exact ⟨congrArg (· + d + 5) heip, hengine⟩
  | movRmReg _ rm _ => exact pathAlike_movRm32 (d := .reg rm) (d' := .reg rm) (n := 1) hpath h h'
  | movMemLow _ _ _ | movMemHigh _ _ _ | movMemDisp8Low _ _ _ _ | movMemDisp8Ebp _ _ _ | movMemDisp8High _ _ _ _
  | movMemDisp32Low _ _ _ _ | movMemDisp32Ebp _ _ _ | movMemDisp32High _ _ _ _ =>
    exact pathAlike_movRm32 hpath h h'
  | movUnmodeledNoDispSib _ | movUnmodeledNoBase _ | movUnmodeledDisp8Sib _ | movUnmodeledDisp32Sib _ =>
    cases h
    cases h'
    exact pathAlike_halt hpath _ _

/-! ### Steps -/

/-- The sentinel test reads the engine state and EIP only (40_fetch_dispatch_engine.md R100). -/
theorem pathAlike_checkSentinel (hpath : PathAlike s s') : PathAlike (checkSentinel s) (checkSentinel s') := by
  have ⟨heip, _, hrun, _⟩ := hpath
  by_cases hends : s.run = .running ∧ s.eip = 0
  · rw [checkSentinel_of_zero hends.1 hends.2, checkSentinel_of_zero (hrun.trans hends.1) (heip.trans hends.2)]
    exact pathAlike_halt hpath _ _
  · rw [checkSentinel, checkSentinel, hrun, heip, if_neg hends, if_neg hends]
    exact hpath

theorem pathAlike_runDecoded {d : Decoded} (hpath : PathAlike s s') (h : runDecoded d s = .next t)
    (h' : runDecoded d s' = .next t') : PathAlike t t' := by
  cases d with
  | unboundOpcode op =>
    cases h
    cases h'
    exact pathAlike_halt hpath _ _
  | truncated => cases h
  | instr i rest =>
    obtain ⟨u, hexec, rfl⟩ := afterHandler_eq_next h
    obtain ⟨u', hexec', rfl⟩ := afterHandler_eq_next h'
    exact pathAlike_checkSentinel (pathAlike_exec hpath hexec hexec')

/-- Two cores alike that decode the same bytes and complete the step stay alike. -/
theorem pathAlike_step (hpath : PathAlike s s') (hwindow : fetchWindow s' = fetchWindow s) (h : step s = .next t)
    (h' : step s' = .next t') : PathAlike t t' := by
  obtain ⟨hrun, -⟩ := step_eq_next h
  obtain ⟨hrun', -⟩ := step_eq_next h'
  rw [step_running hrun] at h
  rw [step_running hrun', hwindow] at h'
  exact pathAlike_runDecoded hpath h h'

end

/-- Fetches read memory and the capacity, no register. -/
theorem fetchBytes_regs (s : State) (f : RegFile) (n : Nat) (a : Word) :
    fetchBytes { s with regs := f } n a = fetchBytes s n a := by
  have hread (a : Word) : memRead8 { s with regs := f } a = memRead8 s a := rfl
  induction n generalizing a with
  | zero => rfl
  | succ n ih => simp only [fetchBytes, hread, ih]

/-- Settles O47: cores that differ in their registers only are alike and have the same window. -/
theorem pathDoesNotDependOnRegisters : Obligations.PathDoesNotDependOnRegisters := by
  intro s t t' f h h'
  have hpath : PathAlike s { s with regs := f } := ⟨rfl, rfl, rfl, rfl, rfl, rfl, rfl⟩
  exact pathAlike_step hpath (fetchBytes_regs s f maxInstrLength s.eip) h h'

/-! ### Turns of the run loop -/

/-- No step is refused: every instruction has a meaning, and the engine refuses nothing itself. -/
theorem step_ne_refused (s : State) (r : Refusal) : step s ≠ .refused r := by
  by_cases hrun : s.run = .running
  · rw [step_running hrun]
    cases decode (fetchWindow s) with
    | unboundOpcode _ => nofun
    | truncated => nofun
    | instr i rest =>
      rcases exec_cases i s with ⟨t, hexec⟩ | ⟨ea, -, hexec⟩ <;>
      · rw [runDecoded, hexec]
        nofun
  · rw [step_stopped hrun]
    nofun

/-- A turn of a running core that does not end in FATAL is a completed step. -/
theorem step_of_turn_not_fatal {s : State} (hrun : s.run = .running) (hsafe : (turn s).run ≠ .fatal) :
    step s = .next (turn s) := by
  cases hstep : step s with
  | next t => rw [turn_of_next hrun hstep]
  | fault f => exact absurd (congrArg State.run (turn_of_fault hrun hstep)) hsafe
  | refused r => exact absurd hstep (step_ne_refused s r)

/-- The parameters are fixed for a run (00_scope.md R13). -/
theorem turn_config (s : State) : (turn s).config = s.config := by
  by_cases hrun : s.run = .running
  · cases hstep : step s with
    | next t =>
      rw [turn_of_next hrun hstep]
      exact (flagsAndParametersNeverChange s t hstep).2
    | fault f =>
      rw [turn_of_fault hrun hstep]
      rfl
    | refused r => exact absurd hstep (step_ne_refused s r)
  · rw [turn_of_stopped hrun]

section
variable {s s' : State}

/-- The ten bytes at EIP are all that the window can hold. -/
theorem fetchWindow_of_fetchesAlike (hvalid : s.config.valid = true) (hpath : PathAlike s s')
    (hfetch : FetchesAlike s s') : fetchWindow s' = fetchWindow s := by
  have ⟨heip, _, _, _, _, _, hconfig⟩ := hpath
  have hcap := Config.memCapacity_lt_of_valid hvalid
  rw [fetchWindow, fetchWindow, fetchBytes_eq_map s' _ _ (hconfig ▸ hcap), fetchBytes_eq_map s _ _ hcap, hconfig,
    heip]
  refine List.map_congr_left fun k hk => hfetch k ?_
  exact Nat.lt_of_lt_of_le (List.mem_range.mp hk) (Nat.min_le_left _ _)

theorem pathAlike_turn (hvalid : s.config.valid = true) (hpath : PathAlike s s') (hfetch : FetchesAlike s s')
    (hsafe : (turn s).run ≠ .fatal) (hsafe' : (turn s').run ≠ .fatal) : PathAlike (turn s) (turn s') := by
  have ⟨_, _, hsame, _⟩ := hpath
  by_cases hrun : s.run = .running
  · exact pathAlike_step hpath (fetchWindow_of_fetchesAlike hvalid hpath hfetch) (step_of_turn_not_fatal hrun hsafe)
      (step_of_turn_not_fatal (hsame.trans hrun) hsafe')
  · rw [turn_of_stopped hrun, turn_of_stopped (hsame ▸ hrun)]
    exact hpath

end

/-- Settles O53, by induction on the turns: each keeps the two cores alike and the parameters legal. -/
theorem runsPathDependsOnRegistersOnlyThroughCode : Obligations.RunsPathDependsOnRegistersOnlyThroughCode := by
  intro s s' n hvalid heip hengine hfetch hsafe
  induction n generalizing s s' with
  | zero => exact ⟨heip, hengine⟩
  | succ n ih =>
    obtain ⟨hturn, hturn'⟩ := hsafe 1 (Nat.le_add_left 1 n)
    obtain ⟨hnextEip, hnextEngine⟩ :=
      pathAlike_turn hvalid ⟨heip, hengine⟩ (hfetch 0 n.zero_lt_succ) hturn hturn'
    exact ih (turn s) (turn s') (turn_config s ▸ hvalid) hnextEip hnextEngine
      (fun k hk => hfetch (k + 1) (Nat.succ_lt_succ hk)) (fun k hk => hsafe (k + 1) (Nat.succ_le_succ hk))

end Sys2Proof.Machine
end

section
/-! ## Memory reaches a step as the instruction's bytes only: with other memory behind the same bytes a step completes
alike and writes the same bytes at the same place (44_unbound_and_absent.md R163) -/

namespace Sys2Proof.Machine

/-! ### The same bytes written to two memories -/

/-- After the same writes each address keeps its byte in both memories or holds the same written byte in both. -/
theorem read_writeBytes_kept_or_alike (m m' : Memory) (a : Nat) (bs : List Byte) (x : Nat) :
    (Memory.read (Memory.writeBytes m a bs) x = Memory.read m x ∧
      Memory.read (Memory.writeBytes m' a bs) x = Memory.read m' x) ∨
    Memory.read (Memory.writeBytes m' a bs) x = Memory.read (Memory.writeBytes m a bs) x := by
  by_cases hx : x < a ∨ a + bs.length ≤ x
  · exact .inl ⟨Memory.read_writeBytes_outside bs m a x hx, Memory.read_writeBytes_outside bs m' a x hx⟩
  · obtain ⟨k, rfl⟩ : ∃ k, x = a + k := Nat.exists_eq_add_of_le (by omega)
    have hk : k < bs.length := by omega
    exact .inr ((Memory.read_writeBytes_inside bs m' a k hk).trans (Memory.read_writeBytes_inside bs m a k hk).symm)

/-- `f` turns `s` into `t` by writing some bytes to memory, and with memory `m` it gives `t` with those bytes written to
`m`. A transition that does not store writes no bytes. -/
def WritesAlike (f : State → Host.Outcome State Fault Refusal) (s t : State) (m : Memory) : Prop :=
  ∃ a bs, t.mem = Memory.writeBytes s.mem a bs ∧
    f { s with mem := m } = .next { t with mem := Memory.writeBytes m a bs }

section
variable {s t : State} {m : Memory} {f : State → Host.Outcome State Fault Refusal}

theorem writesAlike_of_no_store (hmem : t.mem = s.mem) (h : f { s with mem := m } = .next { t with mem := m }) :
    WritesAlike f s t m := ⟨0, [], hmem, h⟩

/-! ### Instructions -/

/-- The bounds of a store are the parameters', and its address and bytes do not come from memory. -/
theorem writesAlike_movRm32 {d : Descriptor} {n : Nat} {imm : Word} (h : movRm32 d n imm s = .next t) :
    WritesAlike (movRm32 d n imm) s t m := by
  rcases movRm32_eq_next h with ⟨r, rfl, rfl⟩ | ⟨ea, rfl, hfits, rfl⟩
  · exact writesAlike_of_no_store rfl (movRm32_reg r n imm _)
  · exact ⟨ea.toNat, bytesOfWord imm, rfl, movRm32_mem_of_le hfits⟩

/-- No instruction loads from memory. -/
theorem writesAlike_exec {i : Instr} (h : exec i s = .next t) : WritesAlike (exec i) s t m := by
  cases i with
  | movEax _ | movEcx _ | movEdx _ | movEbx _ | movEsp _ | movEbp _ | movEsi _ | movEdi _
  | jmpRel8 _ | jmpRel32 _
  | movUnmodeledNoDispSib _ | movUnmodeledNoBase _ | movUnmodeledDisp8Sib _ | movUnmodeledDisp32Sib _ =>
    cases h
    exact writesAlike_of_no_store rfl rfl
  | movRmReg _ rm _ => exact writesAlike_movRm32 (d := .reg rm) (n := 1) h
  | movMemLow _ _ _ | movMemHigh _ _ _ | movMemDisp8Low _ _ _ _ | movMemDisp8Ebp _ _ _ | movMemDisp8High _ _ _ _
  | movMemDisp32Low _ _ _ _ | movMemDisp32Ebp _ _ _ | movMemDisp32High _ _ _ _ =>
    exact writesAlike_movRm32 h

/-! ### The step -/

/-- The sentinel test neither reads nor writes memory (40_fetch_dispatch_engine.md R100). -/
theorem checkSentinel_withMem (s : State) (m : Memory) :
    checkSentinel { s with mem := m } = { checkSentinel s with mem := m } :=
  (apply_ite (fun u : State => ({ u with mem := m } : State)) (s.run = .running ∧ s.eip = 0)
    (halt .endOfProgram .none s) s).symm

theorem writesAlike_afterHandler (h : WritesAlike f s t m) :
    WritesAlike (fun u => afterHandler (f u)) s (checkSentinel t) m := by
  obtain ⟨a, bs, hmem, hf⟩ := h
  exact ⟨a, bs, (checkSentinel_mem t).trans hmem,
    (congrArg afterHandler hf).trans (congrArg Host.Outcome.next (checkSentinel_withMem t _))⟩

theorem writesAlike_runDecoded {d : Decoded} (h : runDecoded d s = .next t) : WritesAlike (runDecoded d) s t m := by
  cases d with
  | unboundOpcode op =>
    cases h
    exact writesAlike_of_no_store rfl rfl
  | truncated => cases h
  | instr i rest =>
    obtain ⟨u, hexec, rfl⟩ := afterHandler_eq_next h
    exact writesAlike_afterHandler (writesAlike_exec hexec)

/-- Memory that gives the same window gives the same step, up to memory. -/
theorem writesAlike_step (hwindow : fetchWindow { s with mem := m } = fetchWindow s) (h : step s = .next t) :
    WritesAlike step s t m := by
  obtain ⟨hrun, -⟩ := step_eq_next h
  rw [step_running hrun] at h
  obtain ⟨a, bs, hmem, hnext⟩ := writesAlike_runDecoded (m := m) h
  exact ⟨a, bs, hmem, by rw [step_running (s := { s with mem := m }) hrun, hwindow, hnext]⟩

end

/-- Settles O48: memory alike in the ten bytes at EIP gives the same window, so both steps write the same bytes. -/
theorem memoryMattersOnlyAsInstructionBytes : Obligations.MemoryMattersOnlyAsInstructionBytes := by
  intro s t m hvalid hbytes hstep
  have hwindow : fetchWindow { s with mem := m } = fetchWindow s :=
    fetchWindow_of_fetchesAlike hvalid ⟨rfl, engineSame_mem s m⟩ hbytes
  obtain ⟨a, bs, hmem, hstep'⟩ := writesAlike_step hwindow hstep
  refine ⟨_, hstep', rfl, rfl, engineSame_mem t _, fun x => ?_⟩
  rw [readByte, hmem]
  exact read_writeBytes_kept_or_alike s.mem m a bs x

end Sys2Proof.Machine
end

section
/-! ## Stop events: what can halt a step, and what can fault one (60_exceptions.md R170 to R177) -/

namespace Sys2Proof.Machine

/-! ### Halts -/

/-- Settles O31: the window opens with the byte at EIP, whose slot of the dispatch table is empty. -/
theorem unboundOpcodeHaltsTheEngine : Obligations.UnboundOpcodeHaltsTheEngine := by
  rintro s op hrun hin rfl hunbound
  rw [step_running hrun, fetchWindow_head hin, decode_of_empty _ ((dispatchTable_empty_iff _).mpr hunbound)]
  rfl

/-- Only an unmodeled encoding halts a running core itself (42_mov.md R142). -/
theorem ExecEffect.halt_eq {s t : State} (heffect : ExecEffect s t) (hrun : s.run = .running)
    (hhalted : t.run = .halted) : ∃ m, t = haltUnimplementedModrm m s := by
  have hstops : t.run ≠ s.run := by rw [hrun, hhalted]; nofun
  rcases heffect with ⟨r, v, e, rfl⟩ | ⟨ea, v, e, -, rfl⟩ | ⟨e, rfl⟩ | ⟨m, -, rfl⟩
  · exact absurd rfl hstops
  · exact absurd rfl hstops
  · exact absurd rfl hstops
  · exact ⟨m, rfl⟩

/-- The three halts of a step (60_exceptions.md R172, R173, R175). -/
theorem step_halt_cases {s t : State} (hstep : step s = .next t) (hhalted : t.run = .halted) :
    (∃ op, t = haltUnimplementedOpcode op s) ∨ (∃ m, t = haltUnimplementedModrm m s) ∨
      t.haltCause = .endOfProgram := by
  obtain ⟨hrun, ⟨op, -, rfl⟩ | ⟨i, rest, u, -, hexec, rfl⟩⟩ := step_eq_next hstep
  · exact .inl ⟨op, rfl⟩
  · rcases checkSentinel_cases u with hsame | ⟨-, -, hend⟩
    · rw [hsame] at hhalted ⊢
      exact .inr (.inl ((exec_eq_next hexec).halt_eq hrun hhalted))
    · exact .inr (.inr (congrArg State.haltCause hend))

/-- Settles O45: the sentinel's halt has another cause, and the other two write only RUN and the halt values. -/
theorem unimplementedHaltsArePrecise : Obligations.UnimplementedHaltsArePrecise := by
  intro s t hstep hhalted hcause
  rcases step_halt_cases hstep hhalted with ⟨op, rfl⟩ | ⟨m, rfl⟩ | hend
  · rfl
  · rfl
  · simp [hend] at hcause

/-! ### Faults -/

/-- A running core faults only at an access: the fetch of its instruction's bytes, or its store. -/
theorem step_eq_fault {s : State} {f : Fault} (hrun : s.run = .running) (hstep : step s = .fault f) :
    ∃ a, f = boundsFault s a := by
  rw [step_running hrun] at hstep
  cases hdecode : decode (fetchWindow s) with
  | unboundOpcode op => rw [hdecode] at hstep; cases hstep
  | truncated => rw [hdecode] at hstep; cases hstep; exact ⟨_, rfl⟩
  | instr i rest =>
    rw [hdecode] at hstep
    have hfault : exec i s = .fault f := afterHandler_eq_fault hstep
    rcases exec_cases i s with ⟨t, hexec⟩ | ⟨ea, -, hexec⟩
    · cases hexec.symm.trans hfault
    · cases hexec.symm.trans hfault
      exact ⟨ea, rfl⟩

/-- Settles O46: the address of a bounds violation is the capacity at least, and the turn of a faulting step changes
RUN only. -/
theorem stepNeverRefusesAndFaultsOnlyOutOfBounds : Obligations.StepNeverRefusesAndFaultsOnlyOutOfBounds := by
  refine fun s => ⟨step_ne_refused s, fun f hstep hrun => ⟨?_, turn_of_fault hrun hstep⟩⟩
  obtain ⟨a, rfl⟩ := step_eq_fault hrun hstep
  exact ⟨_, rfl, Nat.le_max_right _ _⟩

end Sys2Proof.Machine
end

section
/-! ## Reset, load and run: where the image stands when the run begins, and the invariant of every state of a run
(70_reset_and_hazards.md R200, R203, 40_fetch_dispatch_engine.md R101) -/

namespace Sys2Proof.Machine

/-! ### Reset and load -/

theorem boot_of_le {c : Config} {image : List Byte} (h : c.loadOffset.toNat + image.length ≤ c.memCapacity) :
    boot c image = .next { State.resetWith c with mem := Memory.writeBytes [] c.loadOffset.toNat image } :=
  load_of_le h

theorem boot_of_gt {c : Config} {image : List Byte} (h : c.memCapacity < c.loadOffset.toNat + image.length) :
    boot c image = .fault .imageTooLarge := load_of_gt h

/-- The opcode fetch in bounds is the byte at EIP (40_fetch_dispatch_engine.md R90). -/
theorem code8_zero_of_lt {s : State} (h : s.eip.toNat < s.config.memCapacity) :
    code8 s 0 = .ok (readByte s s.eip.toNat) := (code8_zero s).trans (memRead8_of_lt h)

/-- Settles O40: memory is what O54 says of every boot, and EIP is LOAD_OFFSET, where the image's first byte stands. -/
theorem bootPlacesTheImage : Obligations.BootPlacesTheImage := by
  refine fun c image => ⟨fun hfits => ?_, boot_of_gt⟩
  have hboot := boot_of_le hfits
  obtain ⟨hinside, houtside⟩ := (memoryIsZeroButForTheImage c).2 image _ hboot
  refine ⟨_, hboot, hinside, houtside, rfl, ?_⟩
  rintro b rest rfl
  have hin : c.loadOffset.toNat < c.memCapacity :=
    Nat.lt_of_lt_of_le (Nat.lt_add_of_pos_right (Nat.zero_lt_succ rest.length)) hfits
  exact (code8_zero_of_lt hin).trans (congrArg Except.ok (hinside 0 (Nat.zero_lt_succ rest.length)))

/-! ### The invariant along a run -/

theorem inv_boot {c : Config} {image : List Byte} {s : State} (hvalid : c.valid = true) (h : boot c image = .next s) :
    s.inv = true := by
  obtain ⟨hfits, rfl⟩ := load_eq_next h
  exact inv_writeBytes hfits (inv_resetWith hvalid)

/-- FATAL asks of the status values what RUNNING asks (60_exceptions.md R174; decision D9). -/
theorem statusWf_fatalStop_iff (s : State) :
    statusWf (fatalStop s) = true ↔ s.haltCause = .none ∧ s.haltOpcode = 0 ∧ s.haltModrm = 0 := by
  cases hcause : s.haltCause <;> simp [statusWf, fatalStop, hcause]

theorem inv_fatalStop {s : State} (hrun : s.run = .running) (hs : s.inv = true) : (fatalStop s).inv = true := by
  obtain ⟨hcfg, hwf, hbelow, hflags, hstatus⟩ := s.inv_iff.mp hs
  exact (State.inv_iff _).mpr ⟨hcfg, hwf, hbelow, hflags,
    (statusWf_fatalStop_iff s).mpr ((statusWf_running_iff hrun).mp hstatus)⟩

theorem inv_turn {s : State} (hs : s.inv = true) : (turn s).inv = true := by
  by_cases hrun : s.run = .running
  · cases hstep : step s with
    | next t =>
      rw [turn_of_next hrun hstep]
      exact stepKeepsTheInvariant s t hs hstep
    | fault f =>
      rw [turn_of_fault hrun hstep]
      exact inv_fatalStop hrun hs
    | refused r => exact absurd hstep (step_ne_refused s r)
  · rwa [turn_of_stopped hrun]

theorem inv_runLoop {s : State} (n : Nat) (hs : s.inv = true) : (runLoop n s).inv = true := by
  induction n generalizing s with
  | zero => exact hs
  | succ n ih => exact ih (inv_turn hs)

/-- Settles O38: the state after boot satisfies the invariant, and every turn keeps it. -/
theorem everyRunSatisfiesTheInvariant : Obligations.EveryRunSatisfiesTheInvariant :=
  fun _ _ _ n hvalid hboot => inv_runLoop n (inv_boot hvalid hboot)

end Sys2Proof.Machine
end
